-- ==== Sys2Proof/Word.lean ====
section
/-! DEFINITION. The byte type of the CORE. -/

namespace Sys2Proof

/-- A byte, and the content of one tape cell: `CELL_WIDTH` = 8 (00_scope.md R7). Its arithmetic wraps
modulo 256 by definition, which R132 of 42_cell_arithmetic.md allows for a model. -/
abbrev Byte := BitVec 8

end Sys2Proof
end

