-- ==== Sys2Proof/Syntax.lean ====
section
/-! DEFINITION. The instructions of the CORE: one constructor per row of spec/opcode_table.json. -/

namespace Sys2Proof

/-- The eight instructions of 30_encoding.md R83 and the row `NOP` of R85. No instruction has an operand
(R82); `nop` keeps the byte it was decoded from, so that encoding gives that byte back (log entry 19). -/
inductive Instr where
  /-- `>` RIGHT (41_pointer_moves.md R120). -/
  | right
  /-- `<` LEFT (R121). -/
  | left
  /-- `+` INC (42_cell_arithmetic.md R130). -/
  | inc
  /-- `-` DEC (R131). -/
  | dec
  /-- `.` OUT (43_byte_io.md R140). -/
  | out
  /-- `,` IN (R141). -/
  | inp
  /-- `[` OPEN (44_loop_control.md R150; in skip mode 45_skip_mode_nop.md R171). -/
  | openLoop
  /-- `]` CLOSE (R151; in skip mode R172). -/
  | closeLoop
  /-- Every other byte, NOP (45_skip_mode_nop.md R178). -/
  | nop (b : Byte)
  deriving DecidableEq, Repr

end Sys2Proof
end

