-- ==== Sys2Proof/Decode.lean ====
section
/-! DEFINITION. The decoder, total on all bytes (30_encoding.md R86), and the encoder. Both use the
symbol constants below (92_eei_decisions.md D12). UNVERIFIED: the spec itself takes the byte values from general
knowledge (R84, log entry 11). -/

namespace Sys2Proof

/-- `>` (30_encoding.md R83). -/
def symRight : Byte := 0x3E
/-- `<` (R83). -/
def symLeft : Byte := 0x3C
/-- `+` (R83). -/
def symInc : Byte := 0x2B
/-- `-` (R83). -/
def symDec : Byte := 0x2D
/-- `.` (R83). -/
def symOut : Byte := 0x2E
/-- `,` (R83). -/
def symIn : Byte := 0x2C
/-- `[` (R83). -/
def symOpen : Byte := 0x5B
/-- `]` (R83). -/
def symClose : Byte := 0x5D

/-- The instruction alphabet with the instruction each symbol selects, in the order of 30_encoding.md R83. -/
def opcodeTable : List (Byte × Instr) :=
  [(symRight, .right), (symLeft, .left), (symInc, .inc), (symDec, .dec),
   (symOut, .out), (symIn, .inp), (symOpen, .openLoop), (symClose, .closeLoop)]

/-- The eight bytes that are instructions other than `NOP`. -/
def alphabet : List Byte := opcodeTable.map Prod.fst

/-- Decode one byte: the whole byte is compared with the eight fixed values; every other value selects
`NOP` (30_encoding.md R81, R85, R93). -/
def decodeByte (b : Byte) : Instr :=
  match opcodeTable.find? (fun row => row.1 == b) with
  | some row => row.2
  | none => .nop b

/-- Why the decoder gives no instruction. No byte value is ever rejected (30_encoding.md R86). -/
inductive DecodeReject where
  /-- There is no byte to decode. Raised by `decode` on the empty list; safe. -/
  | noByte
  deriving DecidableEq, Repr

/-- Decode the instruction at the front of a byte list and return it with the rest: every instruction is
exactly one byte (30_encoding.md R80, R88). -/
def decode : List Byte → Except DecodeReject (Instr × List Byte)
  | [] => .error .noByte
  | b :: rest => .ok (decodeByte b, rest)

/-- The byte of an instruction (30_encoding.md R83; a `NOP` is its own byte, R85). -/
def encodeByte : Instr → Byte
  | .right => symRight
  | .left => symLeft
  | .inc => symInc
  | .dec => symDec
  | .out => symOut
  | .inp => symIn
  | .openLoop => symOpen
  | .closeLoop => symClose
  | .nop b => b

/-- The words of an instruction: one byte (30_encoding.md R80). -/
def encode (i : Instr) : List Byte := [encodeByte i]

/-- The row mask of spec/opcode_table.json (30_encoding.md R93). -/
def rowMask : Instr → Byte
  | .nop _ => 0x00
  | .right | .left | .inc | .dec | .out | .inp | .openLoop | .closeLoop => 0xFF

/-- The row match of spec/opcode_table.json (30_encoding.md R93). -/
def rowMatch : Instr → Byte
  | .right => 0x3E
  | .left => 0x3C
  | .inc => 0x2B
  | .dec => 0x2D
  | .out => 0x2E
  | .inp => 0x2C
  | .openLoop => 0x5B
  | .closeLoop => 0x5D
  | .nop _ => 0x00

/-- The program text of a list of instructions: written one after another with no separator
(30_encoding.md R89). -/
def assemble (is : List Instr) : List Byte := is.flatMap encode

/-- The instructions of a program text, byte by byte (30_encoding.md R80, R91). -/
def disassemble (bytes : List Byte) : List Instr := bytes.map decodeByte

/-- The one byte of an opcode-table word of `nbits` bits: every bit at and above `nbits` is 0. -/
def tableByte (nbits w : Nat) : Byte := BitVec.ofNat 8 (w % 2 ^ nbits)

/-- The instruction the decoder reads from an opcode-table word. -/
def decodeTableWord (nbits w : Nat) : Option Instr :=
  match decode [tableByte nbits w] with
  | .ok (i, _) => some i
  | .error _ => none

end Sys2Proof
end

