-- ==== Sys2Proof/Config.lean ====
section
/-! DEFINITION. What an implementation or the environment fixes, and the values the spec leaves open. -/

namespace Sys2Proof

/-- One answer of the input source to a request: "get next byte or end-of-stream" (43_byte_io.md R142). -/
inductive InputItem where
  | byte (b : Byte)
  | endOfStream
  deriving DecidableEq, Repr, Inhabited

/-- `TAPE_HALF_CAPACITY` (00_scope.md R9): the largest length either half of the tape may reach. -/
inductive TapeCapacity where
  | unbounded
  | cells (n : Nat)
  deriving DecidableEq, Repr

/-- The arguments of the model that are fixed for a run and that no step writes (00_scope.md R8 to R12;
log entry 1). `prog.length` is `PROG_LEN`. -/
structure Params where
  /-- The program, an immutable sequence of bytes (R10). -/
  prog : List Byte
  /-- `LOOP_STACK_CAPACITY` (R8), any natural number, 0 included. -/
  loopStackCapacity : Nat
  /-- `TAPE_HALF_CAPACITY` (R9). -/
  tapeHalfCapacity : TapeCapacity
  /-- `DEBUG`, a boolean or count that no rule reads (R12). -/
  debug : Nat
  deriving DecidableEq, Repr

/-- `TAPE_HALF_CAPACITY` is "a natural number at least 1, or `unbounded`" (00_scope.md R9). -/
abbrev Params.Legal (p : Params) : Prop := p.tapeHalfCapacity ≠ .cells 0

/-- `LOOP_STACK_CAPACITY` at reset: OPEN in the spec (00_scope.md R8, 92_eei_decisions.md D4). It has no
value a proof could lean on. DESIGN CHOICE, safe (log entry 2). -/
opaque Config.loopStackCapacity : Nat

/-- `TAPE_HALF_CAPACITY` at reset: the default of 00_scope.md R9. DESIGN CHOICE, unsafe (log entry 3). -/
def Config.tapeHalfCapacity : TapeCapacity := .unbounded

/-- The environment's answer to its `n`-th request (counting from 0), where the model's input source is
left free: "drawn from the environment; the CORE's rules hold for every answer" (43_byte_io.md R142,
93_implementation_defined.md U8). A free value. DESIGN CHOICE, safe (log entry 4). -/
opaque Config.inputAnswer : Nat → InputItem

end Sys2Proof
end

