-- ==== Sys2Proof/Machine/State.lean ====
section
/-! DEFINITION. The state of the CORE (10_state.md R20), the environment's part the model carries beside it
(R39), the parameters (00_scope.md R8 to R12), and the reasons a step gives no next state. -/

namespace Sys2Proof.Machine

/-- The fault causes (60_exceptions.md R190), the values of the `fault` record of 10_state.md R28. A faulting
step writes its cause into `State.fault` and is a NEXT state (R197); `step` answers `.fault c` in every state
whose record holds `c`, because once a fault is recorded no step exists (R28). Safe: the machine has stopped. -/
inductive Fault where
  /-- Code 1, raised by a taken `[` on a full loop-start stack (R191). Safe: the spec's own fault. -/
  | loopStackOverflow
  /-- Code 2, raised by a `]` in normal mode on an empty loop-start stack (R192). Safe: the model stops where
  an implementation that ignores the `]` would go on. -/
  | loopStackUnderflow
  /-- Code 3, raised by `>` or `<` where a half would grow past `TAPE_HALF_CAPACITY` (R193). Safe: the spec's own
  fault. -/
  | tapeExhausted
  deriving DecidableEq, Repr

/-- Why there is no step although no fault is recorded. -/
inductive Refusal where
  /-- An instruction without a meaning yet: raised by no arm of `exec`. Safe. -/
  | notModelled (mnemonic : String)
  /-- Raised by `step` when `pc = PROG_LEN`: the CORE is HALTED and no step exists (40_sequencer.md R101). Safe. -/
  | halted
  /-- Raised by `,` when the input source has no answer yet: the step "is not enabled until the environment
  answers" (40_sequencer.md R109, 43_byte_io.md R144). Safe. -/
  | waitingForInput
  /-- Raised by an instruction that accesses an unmaterialised cell: the model "should refuse, not invent a
  value" (20_memory.md R57). No run reaches it. Safe. -/
  | unmaterialisedCell
  /-- Raised by `step` when `pc > PROG_LEN`: `ProgRead` has no meaning there (20_memory.md R68,
  93_implementation_defined.md U15). No run reaches it. Safe. -/
  | noProgramByte
  deriving DecidableEq, Repr

/-- The two halves of the tape (10_state.md R29). -/
inductive Side where
  | positive
  | negative
  deriving DecidableEq, Repr

/-- Where the cell of a virtual address is: a half and an index in it (20_memory.md R51). -/
structure CellPlace where
  side : Side
  index : Nat
  deriving DecidableEq, Repr

/-- One half of the tape: its length, and those of its cells that do not hold 0, as (index, byte) pairs with
indexes strictly rising (10_state.md R29; 92_eei_decisions.md D20; log entry 12). -/
structure Half where
  len : Nat
  cells : List Host.Cell
  deriving DecidableEq, Repr

/-- The tape: two halves joined at a virtual origin (20_memory.md R50). -/
structure Memory where
  pos : Half
  neg : Half
  deriving DecidableEq, Repr

/-- What a cell of a half reads as when no pair lists it: 0, since a new cell is 0 (20_memory.md R54) and every
cell is 0 after reset (10_state.md R37). -/
def Memory.unlisted : Byte := 0

/-- The canonical form of a half: indexes strictly rising, no listed 0, no pair at or beyond the length. -/
abbrev Half.wf (h : Half) : Prop :=
  h.cells.Pairwise (fun a b => a.1 < b.1) ∧ ∀ c ∈ h.cells, c.2 ≠ Memory.unlisted ∧ c.1 < h.len

/-- The canonical form of the tape: equal tapes are equal data. -/
abbrev Memory.wf (m : Memory) : Prop := m.pos.wf ∧ m.neg.wf

/-- What the input source does with a request once its queue is empty. The MODEL's own type (log entry 4). -/
inductive AfterQueue where
  /-- Each further request gets a free answer (`Config.inputAnswer`; 43_byte_io.md R142). -/
  | free
  /-- Every further request is answered `EndOfStream`: the reference environment of R142. -/
  | endOfStream
  /-- The source has no answer yet: a `,` waits (43_byte_io.md R144). -/
  | silent
  deriving DecidableEq, Repr

/-- The environment's input source (43_byte_io.md R142). -/
structure InputSource where
  /-- The answers lined up, the next one first. -/
  queue : List InputItem
  afterQueue : AfterQueue
  /-- How many requests have been answered (10_state.md R40). -/
  asked : Nat
  deriving DecidableEq, Repr

/-- The whole state: the eight pieces of 10_state.md R20, then `out` and the input source (R39), then the
parameters, which no step writes (R36, R38). -/
structure State where
  /-- Program counter (R23). -/
  pc : Nat
  /-- Current virtual address (R22). -/
  addr : Int
  /-- Skip depth (R25). -/
  skip : Nat
  /-- The loop-start stack, `ls[0]` first and the top last; `lsp` is its length (R26, D17). -/
  ls : List Nat
  /-- The tape (R29). -/
  tape : Memory
  /-- The fault record; `none` is `NONE` (R28). -/
  fault : Option Fault
  /-- The bytes handed to the output sink so far (R39). -/
  out : List Byte
  /-- The input source (R39). -/
  input : InputSource
  /-- The parameters (R36, R38). -/
  params : Params
  deriving DecidableEq, Repr

/-- The input source at reset: nothing lined up, further answers free. DESIGN CHOICE, unsafe: no spec
gives the environment's state (log entry 4). -/
def InputSource.reset : InputSource := { queue := [], afterQueue := .free, asked := 0 }

/-- The parameters at reset: no program placed, the capacities of `Config`, `DEBUG` off. DESIGN CHOICE,
unsafe but for the opaque capacity (log entries 2, 3, 16, 18). -/
def Params.reset : Params :=
  { prog := [], loopStackCapacity := Config.loopStackCapacity,
    tapeHalfCapacity := Config.tapeHalfCapacity, debug := 0 }

/-- The state after reset (10_state.md R37, 70_reset_and_hazards.md R230): address 0 is materialised, so the
positive half has one cell, which holds 0 (log entry 10). -/
def State.reset : State :=
  { pc := 0, addr := 0, skip := 0, ls := [],
    tape := { pos := { len := 1, cells := [] }, neg := { len := 0, cells := [] } },
    fault := none, out := [], input := InputSource.reset, params := Params.reset }

end Sys2Proof.Machine
end

