-- ==== Sys2Proof/Machine/Ops.lean ====
section
/-! DEFINITION. The shared operations: the named updates of the state, the tape, the loop-start stack, the two
streams, taking a fault, the mode select, the run status, and what the environment does. -/

namespace Sys2Proof.Machine

/-- What one instruction answers. -/
abbrev StepResult := Host.Outcome State Fault Refusal

/-! ### Named updates of the state -/

/-- The advanced counter, which every action sees (40_sequencer.md R103). -/
def State.npc (s : State) : Nat := s.pc + 1

/-- `pc <- npc`: how every step ends that neither jumps nor faults (10_state.md R23). -/
def State.advance (s : State) : State := { s with pc := s.npc }

/-- `pc <- target`. -/
def State.jump (s : State) (target : Nat) : State := { s with pc := target }

/-- `addr <- a`. -/
def State.withAddr (s : State) (a : Int) : State := { s with addr := a }

/-- `skip <- n`. -/
def State.withSkip (s : State) (n : Nat) : State := { s with skip := n }

/-- The loop-start stack replaced. -/
def State.withStack (s : State) (ls : List Nat) : State := { s with ls := ls }

/-- The tape replaced. -/
def State.withTape (s : State) (t : Memory) : State := { s with tape := t }

/-- `fault <- c`. -/
def State.withFault (s : State) (c : Fault) : State := { s with fault := some c }

/-- The output record replaced. -/
def State.withOut (s : State) (o : List Byte) : State := { s with out := o }

/-- The input source replaced. -/
def State.withInput (s : State) (q : InputSource) : State := { s with input := q }

/-- The program replaced, by the environment only (70_reset_and_hazards.md R232). -/
def State.withProg (s : State) (p : List Byte) : State := { s with params := { s.params with prog := p } }

/-- The `DEBUG` input replaced, by the environment only (00_scope.md R12). -/
def State.withDebug (s : State) (d : Nat) : State := { s with params := { s.params with debug := d } }

/-- `lsp`: the number of entries on the loop-start stack (10_state.md R26). -/
abbrev State.lsp (s : State) : Nat := s.ls.length

/-- `PROG_LEN` (00_scope.md R10). -/
abbrev State.progLen (s : State) : Nat := s.params.prog.length

/-! ### The tape (20_memory.md R50 to R57) -/

/-- The cell of a virtual address: `a >= 0` is `pos[a]`, `a < 0` is `neg[-a-1]` (20_memory.md R51). -/
def Memory.locate (a : Int) : CellPlace :=
  if 0 ≤ a then ⟨.positive, a.toNat⟩ else ⟨.negative, (-a - 1).toNat⟩

/-- One half of the tape. -/
def Memory.half (m : Memory) : Side → Half
  | .positive => m.pos
  | .negative => m.neg

/-- One half of the tape replaced; the other is never touched (20_memory.md R54). -/
def Memory.setHalf (m : Memory) (side : Side) (h : Half) : Memory :=
  match side with
  | .positive => { m with pos := h }
  | .negative => { m with neg := h }

/-- The byte listed for an index, 0 where none is listed. -/
def readCells : List Host.Cell → Nat → Byte
  | [], _ => Memory.unlisted
  | (j, b) :: rest, i => if i = j then b else readCells rest i

/-- The list of pairs after the cell at `i` becomes `v`, in canonical form: a cell that becomes 0 is not listed. -/
def writeCells : List Host.Cell → Nat → Byte → List Host.Cell
  | [], i, v => if v = Memory.unlisted then [] else [(i, v)]
  | (j, b) :: rest, i, v =>
    if i < j then
      if v = Memory.unlisted then (j, b) :: rest else (i, v) :: (j, b) :: rest
    else if i = j then
      if v = Memory.unlisted then rest else (i, v) :: rest
    else (j, b) :: writeCells rest i v

/-- The byte of the cell at an index of a half. -/
def Half.read (h : Half) (i : Nat) : Byte := readCells h.cells i

/-- A half after the cell at an index becomes `v`; its length does not change. -/
def Half.write (h : Half) (i : Nat) (v : Byte) : Half := { h with cells := writeCells h.cells i v }

/-- One more cell, holding 0, at the end of a half (the loop body of 20_memory.md R52). -/
def Half.extend (h : Half) : Half := { len := h.len + 1, cells := writeCells h.cells h.len Memory.unlisted }

/-- Whether a half of this length may not grow: `len = TAPE_HALF_CAPACITY` (20_memory.md R52, R55). -/
def TapeCapacity.isFull : TapeCapacity → Nat → Bool
  | .unbounded, _ => false
  | .cells n, len => len == n

/-- `n` rounds of the loop of `Resolve`, each adding one zero cell (20_memory.md R52). -/
def Half.grow (cap : TapeCapacity) : Nat → Half → Except Fault Half
  | 0, h => .ok h
  | n + 1, h => if TapeCapacity.isFull cap h.len then .error .tapeExhausted else Half.grow cap n h.extend

/-- `Resolve` on one half: grow until its length exceeds the index, which takes `i + 1 - len` rounds. -/
def Half.resolve (cap : TapeCapacity) (i : Nat) (h : Half) : Except Fault Half :=
  Half.grow cap (i + 1 - h.len) h

/-- `Resolve(a)`: materialise virtual address `a`, or raise `TapeExhausted` (20_memory.md R52). -/
def Memory.resolve (m : Memory) (cap : TapeCapacity) (a : Int) : Except Fault Memory :=
  match Half.resolve cap (Memory.locate a).index (m.half (Memory.locate a).side) with
  | .ok h => .ok (m.setHalf (Memory.locate a).side h)
  | .error c => .error c

/-- Address `a` is materialised: its half is long enough to hold its index (10_state.md R31). -/
abbrev Memory.Materialised (m : Memory) (a : Int) : Prop :=
  (Memory.locate a).index < (m.half (Memory.locate a).side).len

/-- `Tape(a)`: the cell's byte where `a` is materialised, 0 elsewhere (20_memory.md R56). -/
def Memory.value (m : Memory) (a : Int) : Byte :=
  if m.Materialised a then (m.half (Memory.locate a).side).read (Memory.locate a).index else Memory.unlisted

/-- `MemRead(a, 1)`: the byte of the cell, defined only where `a` is materialised (20_memory.md R57). -/
def Memory.memRead (m : Memory) (a : Int) : Option Byte :=
  if m.Materialised a then some ((m.half (Memory.locate a).side).read (Memory.locate a).index) else none

/-- The tape after the cell at `a` becomes `v`, wherever `a` is. -/
def Memory.put (m : Memory) (a : Int) (v : Byte) : Memory :=
  m.setHalf (Memory.locate a).side ((m.half (Memory.locate a).side).write (Memory.locate a).index v)

/-- `MemWrite(a, 1, v)`: defined only where `a` is materialised (20_memory.md R57). -/
def Memory.memWrite (m : Memory) (a : Int) (v : Byte) : Option Memory :=
  if m.Materialised a then some (m.put a v) else none

/-! ### Taking a fault (60_exceptions.md R197) -/

/-- `raise`: the step writes nothing but `fault <- cause`; `pc` stays at the faulting instruction, and there is
no handler to go to and no return (60_exceptions.md R197, R198; log entry 7). -/
def raise (c : Fault) (s : State) : StepResult := .next (s.withFault c)

/-- The code of a fault record (60_exceptions.md R190); 0 is `NONE`. -/
def faultCode : Option Fault → Nat
  | none => 0
  | some .loopStackOverflow => 1
  | some .loopStackUnderflow => 2
  | some .tapeExhausted => 3

/-! ### The loop-start stack (10_state.md R27) -/

/-- `Push(v)`: a push at `lsp = LOOP_STACK_CAPACITY` raises `LoopStackOverflow` before it writes. -/
def pushStack (cap : Nat) (ls : List Nat) (v : Nat) : Except Fault (List Nat) :=
  if ls.length = cap then .error .loopStackOverflow else .ok (ls ++ [v])

/-- `Top()`: the top entry, the stack unchanged; on an empty stack raises `LoopStackUnderflow`. -/
def topStack (ls : List Nat) : Except Fault Nat :=
  match ls.getLast? with
  | some v => .ok v
  | none => .error .loopStackUnderflow

/-- `Pop()`: the stack without its top entry; on an empty stack raises `LoopStackUnderflow`. -/
def popStack (ls : List Nat) : Except Fault (List Nat) :=
  match ls with
  | [] => .error .loopStackUnderflow
  | e :: es => .ok (e :: es).dropLast

/-! ### The program and the mode (40_sequencer.md R102, R104) -/

/-- `ProgRead(i)`: defined for `0 <= i < PROG_LEN` (20_memory.md R68). -/
def progRead (p : Params) (i : Nat) : Option Byte := p.prog[i]?

/-- The bytes of the instruction at `pc`: the one byte the fetch reads (40_sequencer.md R102), none beyond the
program. -/
def fetchBytes (s : State) : List Byte := (progRead s.params s.pc).toList

/-- The mode select: the action in skip mode when `skip > 0`, the instruction's own action when `skip = 0`, by
the value `skip` has at the start of the step (40_sequencer.md R104). -/
def selectMode (s : State) (inSkip inNormal : State → StepResult) : StepResult :=
  if 0 < s.skip then inSkip s else inNormal s

/-! ### The two streams (43_byte_io.md R142, R143) -/

/-- `InputNext()`: the next answer of the input source and the source after it; none while it has no answer to
give. A lined-up answer comes first; then the source does what its `afterQueue` says (log entry 4). -/
def inputNext (q : InputSource) : Option (InputItem × InputSource) :=
  match q.queue with
  | item :: rest => some (item, { q with queue := rest, asked := q.asked + 1 })
  | [] =>
    match q.afterQueue with
    | .free => some (Config.inputAnswer q.asked, { q with asked := q.asked + 1 })
    | .endOfStream => some (.endOfStream, { q with asked := q.asked + 1 })
    | .silent => none

/-- `OutputByte(v)`: `out <- out ++ [v]`, flushed before the step ends (43_byte_io.md R143; log entry 15). -/
def outputByte (s : State) (v : Byte) : State := s.withOut (s.out ++ [v])

/-! ### Run status (00_scope.md R18, 60_exceptions.md R207) -/

/-- The run status and, when FAULTED, the cause. -/
inductive RunStatus where
  | running
  | halted
  | faulted (c : Fault)
  deriving DecidableEq, Repr

/-- The run status is a function of the state (00_scope.md R18). -/
def State.status (s : State) : RunStatus :=
  match s.fault with
  | some c => .faulted c
  | none => if s.pc = s.progLen then .halted else .running

/-- What a finished run maps to (60_exceptions.md R207): `some true` is success, `some false` failure, `none` a
run that has not ended. -/
def RunStatus.verdict : RunStatus → Option Bool
  | .running => none
  | .halted => some true
  | .faulted _ => some false

/-! ### What the environment does -/

/-- Reset with the environment's choices of 70_reset_and_hazards.md R232: the program and the parameters, and
an input source (log entry 18). -/
def State.boot (p : Params) (q : InputSource) : State := { State.reset with params := p, input := q }

/-- A reset during or after a run: everything goes back to its reset value but what the environment holds
(70_reset_and_hazards.md R230, R231; log entry 21). -/
def State.restart (s : State) : State := State.boot s.params s.input

/-- The environment lines up one more answer, which ends a wait (43_byte_io.md R144, 60_exceptions.md R206). -/
def State.deliver (s : State) (item : InputItem) : State :=
  s.withInput { s.input with queue := s.input.queue ++ [item] }

/-- A program text with the byte at `i` replaced by `b`, made long enough with `NOP` bytes 0x00 where it is
shorter. -/
def placeByte : List Byte → Nat → Byte → List Byte
  | [], 0, b => [b]
  | _ :: rest, 0, b => b :: rest
  | [], i + 1, b => 0 :: placeByte [] i b
  | x :: rest, i + 1, b => x :: placeByte rest i b

end Sys2Proof.Machine
end

