-- ==== Sys2Proof/Machine/Operands.lean ====
section
/-! DEFINITION. The operands. No instruction has an operand field (30_encoding.md R82): the one operand there
is is the current cell, the cell at `addr` (10_state.md R30), and the constant 1. -/

namespace Sys2Proof.Machine

/-- `cur = MemRead(addr, 1)`, the current cell, found afresh from `addr` at every use (10_state.md R30). -/
def State.cur (s : State) : Option Byte := s.tape.memRead s.addr

/-- The state after `MemWrite(addr, 1, v)`. -/
def State.setCur (s : State) (v : Byte) : State := s.withTape (s.tape.put s.addr v)

/-- A read followed by a write of the current cell in one step (20_memory.md R61), then `pc <- npc`. -/
def updateCell (f : Byte → Byte) (s : State) : StepResult :=
  match s.cur with
  | none => .refused .unmaterialisedCell
  | some v => .next (s.setCur (f v)).advance

/-- The current cell after the input source's answer: the byte on `Byte(b)`, unchanged on `EndOfStream`
(43_byte_io.md R141). -/
def State.receive (s : State) (item : InputItem) : State :=
  s.withTape
    (match item with
    | .byte b => s.tape.put s.addr b
    | .endOfStream => s.tape)

end Sys2Proof.Machine
end

