-- ==== Sys2Proof/Machine/SkipMode.lean ====
section
/-! DEFINITION. The three actions of skip mode (45_skip_mode_nop.md R171 to R173), and `NOP`. -/

namespace Sys2Proof.Machine

/-- `[` in skip mode: `skip <- skip + 1; pc <- npc` (45_skip_mode_nop.md R171). -/
def skipOpen (s : State) : StepResult := .next (s.withSkip (s.skip + 1)).advance

/-- `]` in skip mode: `skip <- skip - 1; pc <- npc` (R172). -/
def skipClose (s : State) : StepResult := .next (s.withSkip (s.skip - 1)).advance

/-- Every other byte in skip mode: `pc <- npc` (R173). -/
def skipOther (s : State) : StepResult := .next s.advance

/-- `NOP` in normal mode: `pc <- npc` (R178). The byte plays no part. -/
def nopNormal (_b : Byte) (s : State) : StepResult := .next s.advance

/-- `NOP` (45_skip_mode_nop.md R178, R173). -/
def execNop (b : Byte) (s : State) : StepResult := selectMode s skipOther (nopNormal b)

end Sys2Proof.Machine
end

