-- ==== Sys2Proof/Machine/ByteIO.lean ====
section
/-! DEFINITION. `.` and `,` (43_byte_io.md): the byte I/O multiplexer of R145. -/

namespace Sys2Proof.Machine

/-- `OUT` in normal mode: the current cell's byte to the output sink (43_byte_io.md R140). -/
def outNormal (s : State) : StepResult :=
  match s.cur with
  | none => .refused .unmaterialisedCell
  | some v => .next (outputByte s v).advance

/-- `IN` in normal mode: one answer of the input source; a byte goes into the current cell, end-of-stream leaves
it (43_byte_io.md R141). While there is no answer there is no step (R144). `MemWrite` is made only on a byte, so
only then must the cell be materialised (20_memory.md R57, R58). -/
def inNormal (s : State) : StepResult :=
  match inputNext s.input with
  | none => .refused .waitingForInput
  | some (item, source) =>
    if s.tape.Materialised s.addr ∨ item = .endOfStream then
      .next ((s.receive item).withInput source).advance
    else .refused .unmaterialisedCell

/-- `.` OUT (43_byte_io.md R140; in skip mode 45_skip_mode_nop.md R173). -/
def execOut (s : State) : StepResult := selectMode s skipOther outNormal

/-- `,` IN (43_byte_io.md R141; in skip mode R173: it consumes nothing and never waits). -/
def execIn (s : State) : StepResult := selectMode s skipOther inNormal

end Sys2Proof.Machine
end

