-- ==== Sys2Proof/Machine/Flags.lean ====
section
/-! DEFINITION. There are no flags, no condition codes and no predicate registers (10_state.md R24). The only
condition any instruction tests is "current cell == 0"; it is stored nowhere. -/

namespace Sys2Proof.Machine

/-- The condition `[` and `]` test, on the current cell's byte at the moment they execute (10_state.md R24). -/
def cellIsZero (v : Byte) : Bool := v == 0

/-- Cell + 1, wrapping modulo 256; no carry is recorded (42_cell_arithmetic.md R130, R132). -/
def cellInc (v : Byte) : Byte := BitVec.ofNat 8 ((v.toNat + 1) % 256)

/-- Cell - 1, wrapping modulo 256; no borrow is recorded (42_cell_arithmetic.md R131, R132). -/
def cellDec (v : Byte) : Byte := BitVec.ofInt 8 (((v.toNat : Int) - 1) % 256)

end Sys2Proof.Machine
end

