-- ==== Sys2Proof/Machine/CellArithmetic.lean ====
section
/-! DEFINITION. `+` and `-` (42_cell_arithmetic.md). -/

namespace Sys2Proof.Machine

/-- `INC` in normal mode (42_cell_arithmetic.md R130). -/
def incNormal (s : State) : StepResult := updateCell cellInc s

/-- `DEC` in normal mode (R131). -/
def decNormal (s : State) : StepResult := updateCell cellDec s

/-- `+` INC (42_cell_arithmetic.md R130; in skip mode 45_skip_mode_nop.md R173). -/
def execInc (s : State) : StepResult := selectMode s skipOther incNormal

/-- `-` DEC (42_cell_arithmetic.md R131; in skip mode R173). -/
def execDec (s : State) : StepResult := selectMode s skipOther decNormal

end Sys2Proof.Machine
end

