-- ==== Sys2Proof/Machine/LoopControl.lean ====
section
/-! DEFINITION. `[` and `]` (44_loop_control.md). -/

namespace Sys2Proof.Machine

/-- `OPEN` in normal mode: the cell is tested first and the capacity second (44_loop_control.md R150,
60_exceptions.md R196). A zero cell enters skip mode; a non-zero cell pushes the resume point `npc`. -/
def openNormal (s : State) : StepResult :=
  match s.cur with
  | none => .refused .unmaterialisedCell
  | some v =>
    if cellIsZero v then .next (s.withSkip 1).advance
    else
      match pushStack s.params.loopStackCapacity s.ls s.npc with
      | .error c => raise c s
      | .ok ls => .next (s.withStack ls).advance

/-- `CLOSE` in normal mode: the emptiness test comes first (44_loop_control.md R154). A non-zero cell jumps to
the top entry and keeps it; a zero cell discards it and goes on (R151, R152; 90_conflicts.md C1; log entry 8). -/
def closeNormal (s : State) : StepResult :=
  match topStack s.ls with
  | .error c => raise c s
  | .ok target =>
    match s.cur with
    | none => .refused .unmaterialisedCell
    | some v =>
      if cellIsZero v then
        match popStack s.ls with
        | .error c => raise c s
        | .ok ls => .next (s.withStack ls).advance
      else .next (s.jump target)

/-- `[` OPEN (44_loop_control.md R150; in skip mode 45_skip_mode_nop.md R171). -/
def execOpen (s : State) : StepResult := selectMode s skipOpen openNormal

/-- `]` CLOSE (44_loop_control.md R151; in skip mode R172). -/
def execClose (s : State) : StepResult := selectMode s skipClose closeNormal

end Sys2Proof.Machine
end

