-- ==== Sys2Proof/Machine/PointerMoves.lean ====
section
/-! DEFINITION. `>` and `<` (41_pointer_moves.md). -/

namespace Sys2Proof.Machine

/-- Resolve the new address, then commit it and advance; on `TapeExhausted` nothing but the fault record is
written (41_pointer_moves.md R120, R121; 90_conflicts.md C7). -/
def movePointer (a : Int) (s : State) : StepResult :=
  match s.tape.resolve s.params.tapeHalfCapacity a with
  | .error c => raise c s
  | .ok t => .next ((s.withTape t).withAddr a).advance

/-- `RIGHT` in normal mode (R120). -/
def rightNormal (s : State) : StepResult := movePointer (s.addr + 1) s

/-- `LEFT` in normal mode (R121). -/
def leftNormal (s : State) : StepResult := movePointer (s.addr - 1) s

/-- `>` RIGHT (41_pointer_moves.md R120; in skip mode 45_skip_mode_nop.md R173). -/
def execRight (s : State) : StepResult := selectMode s skipOther rightNormal

/-- `<` LEFT (41_pointer_moves.md R121; in skip mode R173). -/
def execLeft (s : State) : StepResult := selectMode s skipOther leftNormal

end Sys2Proof.Machine
end

