-- ==== Sys2Proof/Machine/Dispatch.lean ====
section
/-! DEFINITION. One arm per instruction: the case of 40_sequencer.md R100, each meaning with both modes. -/

namespace Sys2Proof.Machine

-- The effect of one decoded instruction on the state (40_sequencer.md R100).
def exec (i : Instr) (s : State) : Host.Outcome State Fault Refusal :=
  match i with
  | .right => Sys2Proof.Machine.execRight s
  | .left => Sys2Proof.Machine.execLeft s
  | .inc => Sys2Proof.Machine.execInc s
  | .dec => Sys2Proof.Machine.execDec s
  | .out => Sys2Proof.Machine.execOut s
  | .inp => Sys2Proof.Machine.execIn s
  | .openLoop => Sys2Proof.Machine.execOpen s
  | .closeLoop => Sys2Proof.Machine.execClose s
  | .nop b => Sys2Proof.Machine.execNop b s

end Sys2Proof.Machine
end

