-- ==== Sys2Proof/Machine/Step.lean ====
section
/-! DEFINITION. One dispatch step (40_sequencer.md R100): status, fetch, decode, then the instruction, which
itself advances `pc` and selects by mode. -/

namespace Sys2Proof.Machine

/-- `Step` (40_sequencer.md R100). A step exists only in status RUNNING: with a recorded fault there is none
(10_state.md R28), and the termination test comes before the fetch (R101). -/
def step (s : State) : Host.Outcome State Fault Refusal :=
  match s.fault with
  | some c => .fault c
  | none =>
    if s.pc = s.progLen then .refused .halted
    else
      match decode (fetchBytes s) with
      | .error _ => .refused .noProgramByte
      | .ok (i, _) => exec i s

/-- `s` with the one-byte instruction of an opcode-table word placed at `pc`, where the next step fetches: this
stands for the environment's loading of the program (70_reset_and_hazards.md R232; log entry 18). A state with a
recorded fault runs nothing, with or without it. -/
def State.withFetchWord (s : State) (nbits w : Nat) : State :=
  s.withProg (placeByte s.params.prog s.pc (tableByte nbits w))

end Sys2Proof.Machine
end

