-- ==== Sys2Proof/Machine/ReadingA.lean ====
section
/-! DEFINITION. The other repair of the source's text on `]`, Reading A of 44_loop_control.md R159: not the model,
kept so that a claim can compare the two. -/

namespace Sys2Proof.Machine

/-- `]` in normal mode under Reading A: a repeating `]` pops the entry and goes back to the `[` itself, the byte
before the resume point (44_loop_control.md R159). -/
def closeNormalA (s : State) : StepResult :=
  match topStack s.ls with
  | .error c => raise c s
  | .ok target =>
    match s.cur with
    | none => .refused .unmaterialisedCell
    | some v =>
      match popStack s.ls with
      | .error c => raise c s
      | .ok ls => if cellIsZero v then .next (s.withStack ls).advance else .next ((s.withStack ls).jump (target - 1))

/-- One dispatch step under Reading A: only the `]` differs. -/
def stepA (s : State) : StepResult :=
  match s.fault with
  | some c => .fault c
  | none =>
    if s.pc = s.progLen then .refused .halted
    else
      match decode (fetchBytes s) with
      | .error _ => .refused .noProgramByte
      | .ok (.closeLoop, _) => selectMode s skipClose closeNormalA
      | .ok (i, _) => exec i s

end Sys2Proof.Machine
end

