-- ==== Sys2Proof/WellFormed.lean ====
section
/-! DEFINITION. Which terms of `Instr` are instructions: a `NOP` may hold any byte but the eight of the
instruction alphabet (30_encoding.md R85). -/

namespace Sys2Proof

/-- An instruction is well formed when its byte selects it: a `nop` holds none of the eight bytes of
30_encoding.md R83 (R93: the `NOP` row "is selected exactly when no other row matches"). -/
def Instr.wf : Instr → Bool
  | .nop b => !alphabet.contains b
  | .right | .left | .inc | .dec | .out | .inp | .openLoop | .closeLoop => true

end Sys2Proof
end

