-- ==== Sys2Proof/Safety.lean ====
section
/-! DEFINITION. The terms claims are stated in: the invariants of the machine, runs, bracket depth, and the
comparisons of two machines. -/

namespace Sys2Proof.Machine

/-! ### Runs -/

/-- The next step fetches the byte `b`: no fault is recorded (status RUNNING, 00_scope.md R18) and `b` stands at
`pc` in the program (40_sequencer.md R102). -/
abbrev State.Fetching (s : State) (b : Byte) : Prop := s.fault = none ∧ s.params.prog[s.pc]? = some b

/-- `Reaches s t`: `t` comes from `s` by zero or more steps (40_sequencer.md R106). -/
inductive Reaches : State → State → Prop where
  | refl (s : State) : Reaches s s
  | tail {s t u : State} : Reaches s t → step t = .next u → Reaches s u

/-- `ScansTo u t`: from `u`, one step and then any number of steps taken in skip mode lead to `t`. -/
inductive ScansTo (u : State) : State → Prop where
  | first {t : State} : step u = .next t → ScansTo u t
  | more {s t : State} : ScansTo u s → 0 < s.skip → step s = .next t → ScansTo u t

/-- The same instruction executed `n` times in a row. -/
def execTimes (i : Instr) : Nat → State → StepResult
  | 0, s => .next s
  | n + 1, s =>
    match exec i s with
    | .next t => execTimes i n t
    | .fault c => .fault c
    | .refused r => .refused r

/-- The next state changed by `f`; a fault or a refusal is left as it is. -/
def mapNext (f : State → State) : StepResult → StepResult
  | .next s => .next (f s)
  | .fault c => .fault c
  | .refused r => .refused r

/-! ### The invariant of the machine -/

/-- A half's length is within `TAPE_HALF_CAPACITY` (20_memory.md R55). -/
def TapeCapacity.Allows : TapeCapacity → Nat → Prop
  | .unbounded, _ => True
  | .cells n, len => len ≤ n

/-- What holds in every state a run from reset reaches (10_state.md R26, R31; 20_memory.md R71; 40_sequencer.md
R112; 45_skip_mode_nop.md R176), with the tape's canonical form. -/
structure State.Inv (s : State) : Prop where
  tapeWf : s.tape.wf
  /-- Address 0 stays materialised (10_state.md R32). -/
  origin : 1 ≤ s.tape.pos.len
  /-- `addr` is materialised (10_state.md R31). -/
  current : s.tape.Materialised s.addr
  posCapacity : TapeCapacity.Allows s.params.tapeHalfCapacity s.tape.pos.len
  negCapacity : TapeCapacity.Allows s.params.tapeHalfCapacity s.tape.neg.len
  /-- `0 <= pc <= PROG_LEN` (40_sequencer.md R112). -/
  pcBound : s.pc ≤ s.progLen
  /-- `lsp <= LOOP_STACK_CAPACITY` (10_state.md R26). -/
  stackBound : s.lsp ≤ s.params.loopStackCapacity
  /-- Each entry is a resume point: the index just after a `[`, at or before `pc` (10_state.md R26). -/
  stackEntries : ∀ e ∈ s.ls, 1 ≤ e ∧ e ≤ s.pc ∧ s.params.prog[e - 1]? = some symOpen
  /-- The entries rise: outermost loop first (44_loop_control.md R152). -/
  stackRising : s.ls.Pairwise (· < ·)
  /-- `skip` never exceeds the bytes passed (45_skip_mode_nop.md R176). -/
  skipBound : s.skip ≤ s.pc

/-! ### Bracket pairing (44_loop_control.md R155) -/

/-- How many more `[` than `]` the first `k` bytes of the program hold. -/
def bracketDepth (prog : List Byte) (k : Nat) : Int :=
  ((prog.take k).count symOpen : Int) - ((prog.take k).count symClose : Int)

/-- The program's brackets are balanced in the text. -/
def BracketsBalanced (prog : List Byte) : Prop :=
  (∀ k, 0 ≤ bracketDepth prog k) ∧ bracketDepth prog prog.length = 0

/-- The `[` at `p` is open at `pc`: no `]` between them balances it. `d` is the depth of its body. -/
def OpenSince (prog : List Byte) (p pc : Nat) (d : Int) : Prop :=
  p < pc ∧ prog[p]? = some symOpen ∧ bracketDepth prog (p + 1) = d ∧ ∀ k, p < k → k ≤ pc → d ≤ bracketDepth prog k

/-- The `]` at `q` is the one that balances the `[` at `p` in the text. -/
def Balances (prog : List Byte) (p q : Nat) : Prop :=
  OpenSince prog p q (bracketDepth prog (p + 1)) ∧ prog[q]? = some symClose ∧
    bracketDepth prog (q + 1) = bracketDepth prog p

/-- How the loop-start stack and the skip depth follow the brackets of the program text (44_loop_control.md R155,
R152; 45_skip_mode_nop.md R174). It holds for every program, balanced or not. -/
structure State.Paired (s : State) : Prop where
  /-- Every bracket still open at `pc` is either an entry of the stack or counted by `skip`. -/
  depth : bracketDepth s.params.prog s.pc = (s.lsp : Int) + (s.skip : Int)
  /-- Entry `i` belongs to a `[` still open at `pc`, `i` loops deep. -/
  entries : ∀ i e : Nat, s.ls[i]? = some e → 1 ≤ e ∧ OpenSince s.params.prog (e - 1) s.pc ((i : Int) + 1)
  /-- The scan of skip mode began at a `[` still open at `pc`, inside the entered loops. -/
  scan : 0 < s.skip → ∃ p, OpenSince s.params.prog p s.pc ((s.lsp : Int) + 1)

/-! ### Comparing two machines -/

/-- Two states that agree in everything but how the tape is stored: the same byte at every address, both tapes in
canonical form, the current cell in storage in both (20_memory.md R56). -/
structure SameButTapeStorage (s t : State) : Prop where
  rest : t = { s with tape := t.tape }
  bytes : ∀ a, t.tape.value a = s.tape.value a
  wfLeft : s.tape.wf
  wfRight : t.tape.wf
  currentLeft : s.tape.Materialised s.addr
  currentRight : t.tape.Materialised s.addr

/-- Two answers of a step that agree up to how the tape is stored. -/
inductive SameAnswer : StepResult → StepResult → Prop where
  | next {s t : State} : SameButTapeStorage s t → SameAnswer (.next s) (.next t)
  | fault (c : Fault) : SameAnswer (.fault c) (.fault c)
  | refused (r : Refusal) : SameAnswer (.refused r) (.refused r)

end Sys2Proof.Machine
end

