-- ==== Sys2Proof/Certificates/Slice0/Obligations.lean ====
section
/-! DEFINITION. The statements for the provers. Each docstring cites the rules of spec/ it formalises; where a clause
rests on a decision of the spec or of this model, the docstring names it. For every statement here: the byte values of
the eight symbols are those R83 and each instruction's own rule print, which the spec takes from general knowledge
(R84, D12; log entry 11); and `.refused .halted` is this model's form of "no step" (log entry 6). -/

open Sys2Proof Sys2Proof.Machine

/-! ### Encoding (30_encoding.md) -/

/-- Words written out bit by bit from the table of 30_encoding.md R83 decode to the instructions they stand for
(the byte values are ASCII, R84, from general knowledge: log entry 11), and four bytes outside the table to `NOP`. -/
def Obligations.WrittenOutWordsDecode : Prop :=
  decode [0b00111110#8] = .ok (.right, []) ∧ decode [0b00111100#8] = .ok (.left, []) ∧
  decode [0b00101011#8] = .ok (.inc, []) ∧ decode [0b00101101#8] = .ok (.dec, []) ∧
  decode [0b00101110#8] = .ok (.out, []) ∧ decode [0b00101100#8] = .ok (.inp, []) ∧
  decode [0b01011011#8] = .ok (.openLoop, []) ∧ decode [0b01011101#8] = .ok (.closeLoop, []) ∧
  decode [0x00#8, 0x2B#8] = .ok (.nop 0x00, [0x2B]) ∧ decode [0x78#8] = .ok (.nop 0x78, []) ∧
  decode [0x35#8] = .ok (.nop 0x35, []) ∧ decode [0xC3#8] = .ok (.nop 0xC3, [])

/-- Decode and encode agree on every well-formed instruction, whatever bytes follow it (30_encoding.md R80, R86). -/
def Obligations.DecodeOfEncode : Prop :=
  ∀ (i : Instr) (rest : List Byte), i.wf = true → decode (encode i ++ rest) = .ok (i, rest)

/-- A program text and its list of instructions determine each other: every byte is one well-formed instruction
and nothing else, and no byte is lost (30_encoding.md R80, R86, R88, R91). -/
def Obligations.ProgramTextRoundTrip : Prop :=
  (∀ is : List Instr, (∀ i ∈ is, i.wf = true) → disassemble (assemble is) = is) ∧
  (∀ bytes : List Byte, assemble (disassemble bytes) = bytes ∧ ∀ i ∈ disassemble bytes, i.wf = true)

/-- 30_encoding.md R85 and 45_skip_mode_nop.md R178: each byte other than the eight of R83 is a `NOP`, in both
modes: the step fetches it, advances `pc` and does nothing else. -/
def Obligations.OtherBytesAreNopInBothModes : Prop :=
  ∀ (b : Byte), b ∉ ([0x3E, 0x3C, 0x2B, 0x2D, 0x2E, 0x2C, 0x5B, 0x5D] : List Byte) →
    decodeByte b = .nop b ∧
    (∀ s : State, exec (.nop b) s = .next { s with pc := s.pc + 1 }) ∧
    (∀ s : State, s.Fetching b → step s = .next { s with pc := s.pc + 1 })

/-! ### The sequencer (40_sequencer.md) -/

/-- A step runs the instruction its fetch decodes, on the state as it is: what the step adds is only the status
test and the fetch (40_sequencer.md R100 to R104; the advance of `pc` and the mode select are in `exec`, log entry
20). -/
def Obligations.StepRunsTheDecodedInstruction : Prop :=
  (∀ (s : State) (i : Instr) (rest : List Byte), s.fault = none → s.pc ≠ s.progLen →
    decode (fetchBytes s) = .ok (i, rest) → step s = exec i s) ∧
  (∀ (s : State) (b : Byte), s.Fetching b →
    decode (fetchBytes s) = .ok (decodeByte b, []) ∧ step s = exec (decodeByte b) s)

/-- 40_sequencer.md R101: the CORE is HALTED, with no step taken, exactly when `pc = PROG_LEN` at the start of the
step; the test is the same in both modes, and `skip` and `lsp` play no part in it. -/
def Obligations.HaltsExactlyAtProgramEnd : Prop :=
  ∀ s : State, s.fault = none →
    (step s = .refused .halted ↔ s.pc = s.progLen) ∧ (s.status = .halted ↔ s.pc = s.progLen)

/-- Once a fault is recorded no step exists, and only reset leaves that status (10_state.md R28, 60_exceptions.md
R198; the record is the spec's decision D6). The answer `.fault` is this model's form (log entry 6). -/
def Obligations.FaultIsSticky : Prop :=
  ∀ (s : State) (c : Fault), s.fault = some c →
    step s = .fault c ∧ s.status = .faulted c ∧ (∀ t, Reaches s t → t = s) ∧ s.restart.fault = none

/-- The run status and what it maps to (00_scope.md R18, 60_exceptions.md R207, the spec's decision D16). -/
def Obligations.RunStatusAndVerdict : Prop :=
  ∀ s : State,
    (∀ c, s.fault = some c → s.status = .faulted c ∧ s.status.verdict = some false ∧ faultCode s.fault ≠ 0) ∧
    (s.fault = none → s.pc = s.progLen → s.status = .halted ∧ s.status.verdict = some true) ∧
    (s.fault = none → s.pc ≠ s.progLen → s.status = .running ∧ s.status.verdict = none)

/-- 20_memory.md R67: the program is immutable; every fetch at an index returns the same byte all through a run,
and the other parameters do not change either. -/
def Obligations.ProgramIsImmutable : Prop :=
  ∀ s t : State, Reaches s t → t.params = s.params ∧ ∀ i, progRead t.params i = progRead s.params i

/-! ### Skip mode (45_skip_mode_nop.md) -/

/-- 45_skip_mode_nop.md R171, R172, R173: in skip mode only `[` and `]` act, and only on `skip`; every instruction
completes, and nothing but `skip` and `pc` changes. -/
def Obligations.SkipModeEffect : Prop :=
  ∀ s : State, 0 < s.skip →
    exec .openLoop s = .next { s with skip := s.skip + 1, pc := s.pc + 1 } ∧
    exec .closeLoop s = .next { s with skip := s.skip - 1, pc := s.pc + 1 } ∧
    (∀ i, i ≠ .openLoop → i ≠ .closeLoop → exec i s = .next { s with pc := s.pc + 1 }) ∧
    (s.Fetching 0x5B → step s = .next { s with skip := s.skip + 1, pc := s.pc + 1 }) ∧
    (s.Fetching 0x5D → step s = .next { s with skip := s.skip - 1, pc := s.pc + 1 }) ∧
    (∀ b, b ≠ 0x5B → b ≠ 0x5D → s.Fetching b → step s = .next { s with pc := s.pc + 1 })

/-- 45_skip_mode_nop.md R175: the only way into skip mode is a `[` executed in normal mode on a zero current cell,
and it sets `skip` to 1. -/
def Obligations.SkipModeEnteredOnlyByOpen : Prop :=
  ∀ s t : State, step s = .next t → s.skip = 0 →
    (0 < t.skip ↔ s.Fetching 0x5B ∧ s.cur = some 0) ∧ (0 < t.skip → t.skip = 1)

/-- A scan ends at the `]` that balances the `[` it began at, and has then changed nothing but `pc`; until then it
has changed nothing but `pc` and `skip` (45_skip_mode_nop.md R174, R177; 44_loop_control.md R155). No premise on the
program: it need not be balanced. -/
def Obligations.ScanEndsAtBalancingBracket : Prop :=
  ∀ u t : State, u.skip = 0 → u.Fetching 0x5B → u.cur = some 0 → ScansTo u t →
    (0 < t.skip → t = { u with pc := t.pc, skip := t.skip } ∧ u.pc < t.pc ∧
      ∀ q, u.pc < q → q < t.pc → ¬ Balances u.params.prog u.pc q) ∧
    (t.skip = 0 → ∃ q, Balances u.params.prog u.pc q ∧ t = { u with pc := q + 1 })

/-- A scan always comes to an end: just past the balancing `]` where there is one (45_skip_mode_nop.md R170, R174),
and at the end of the program, still in skip mode, where there is none (R179). -/
def Obligations.ScanReachesItsEnd : Prop :=
  ∀ u : State, u.skip = 0 → u.Fetching 0x5B → u.cur = some 0 →
    (∀ q, Balances u.params.prog u.pc q → ScansTo u { u with pc := q + 1 }) ∧
    ((∀ q, ¬ Balances u.params.prog u.pc q) →
      ∃ n, 0 < n ∧ ScansTo u { u with pc := u.progLen, skip := n })

/-! ### The tape and the pointer moves (20_memory.md, 41_pointer_moves.md) -/

/-- 20_memory.md R51: address `a >= 0` is `pos[a]` and `a < 0` is `neg[-a-1]`; the mapping is a bijection, so a
write at one address never affects another. -/
def Obligations.AddressMappingIsABijection : Prop :=
  (∀ a : Int, 0 ≤ a → Memory.locate a = ⟨.positive, a.toNat⟩) ∧
  (∀ a : Int, a < 0 → Memory.locate a = ⟨.negative, (-a - 1).toNat⟩) ∧
  (∀ place : CellPlace, ∃ a, Memory.locate a = place ∧ ∀ b, Memory.locate b = place → b = a) ∧
  (∀ (m m' : Memory) (a b : Int) (v : Byte), m.memWrite a v = some m' → b ≠ a → m'.memRead b = m.memRead b)

/-- `RIGHT` (41_pointer_moves.md R120, the order of resolve and commit by the spec's decision D6): the address moves
by one; a new cell, when one is needed, is one more cell holding 0 at the end of the positive half; the only fault is
`TapeExhausted` on a full half, which writes nothing else. -/
def Obligations.RightMovesAndGrows : Prop :=
  decodeByte 0x3E = .right ∧
  ∀ s : State, s.Inv → s.skip = 0 →
    (s.tape.Materialised (s.addr + 1) → exec .right s = .next { s with addr := s.addr + 1, pc := s.pc + 1 }) ∧
    (¬ s.tape.Materialised (s.addr + 1) →
      s.addr + 1 = s.tape.pos.len ∧
      (s.params.tapeHalfCapacity = .cells s.tape.pos.len → exec .right s = .next { s with fault := some .tapeExhausted }) ∧
      (s.params.tapeHalfCapacity ≠ .cells s.tape.pos.len →
        ∃ m : Memory, exec .right s = .next { s with tape := m, addr := s.addr + 1, pc := s.pc + 1 } ∧
          m.pos.len = s.tape.pos.len + 1 ∧ m.neg = s.tape.neg ∧ m.memRead (s.addr + 1) = some 0 ∧
          ∀ a, a ≠ s.addr + 1 → m.memRead a = s.tape.memRead a))

/-- `LEFT` (41_pointer_moves.md R121, the order of resolve and commit by the spec's decision D6): as `RIGHT`, with
the negative half; at address 0 it moves to -1. -/
def Obligations.LeftMovesAndGrows : Prop :=
  decodeByte 0x3C = .left ∧
  ∀ s : State, s.Inv → s.skip = 0 →
    (s.tape.Materialised (s.addr - 1) → exec .left s = .next { s with addr := s.addr - 1, pc := s.pc + 1 }) ∧
    (¬ s.tape.Materialised (s.addr - 1) →
      s.addr - 1 = -(s.tape.neg.len : Int) - 1 ∧
      (s.params.tapeHalfCapacity = .cells s.tape.neg.len → exec .left s = .next { s with fault := some .tapeExhausted }) ∧
      (s.params.tapeHalfCapacity ≠ .cells s.tape.neg.len →
        ∃ m : Memory, exec .left s = .next { s with tape := m, addr := s.addr - 1, pc := s.pc + 1 } ∧
          m.neg.len = s.tape.neg.len + 1 ∧ m.pos = s.tape.pos ∧ m.memRead (s.addr - 1) = some 0 ∧
          ∀ a, a ≠ s.addr - 1 → m.memRead a = s.tape.memRead a))

/-- The frame of the two moves, in every state: a move stores to no cell, so every cell in storage reads as before;
the stack, `skip`, the streams and the parameters are unchanged; a move that faults changes nothing but `fault`
(41_pointer_moves.md R120, R121, R122). -/
def Obligations.MovesFrame : Prop :=
  ∀ (i : Instr) (s t : State), i = .right ∨ i = .left → exec i s = .next t →
    t.skip = s.skip ∧ t.ls = s.ls ∧ t.out = s.out ∧ t.input = s.input ∧ t.params = s.params ∧
    (∀ a, s.tape.Materialised a → t.tape.memRead a = s.tape.memRead a) ∧
    (t.fault = s.fault ∨ t = { s with fault := some .tapeExhausted })

/-- `addr` is "mutated only by `<`/`>`", in normal mode, and by exactly one (10_state.md R22, 41_pointer_moves.md
R122). -/
def Obligations.AddressMutatedOnlyByMoves : Prop :=
  ∀ s t : State, step s = .next t → t.addr ≠ s.addr →
    s.skip = 0 ∧ t.tape.Materialised t.addr ∧
      ((s.Fetching 0x3E ∧ t.addr = s.addr + 1) ∨ (s.Fetching 0x3C ∧ t.addr = s.addr - 1))

/-- The tape grows by at most one cell a step, at the end of one half, only in a `>` or `<` that moves onto it; it
never shrinks, and no growth changes a cell's value (20_memory.md R54, R56; 41_pointer_moves.md R122). -/
def Obligations.TapeGrowsOneCellAtATime : Prop :=
  ∀ s t : State, s.Inv → step s = .next t →
    (t.tape.pos.len = s.tape.pos.len ∧ t.tape.neg.len = s.tape.neg.len) ∨
    (s.skip = 0 ∧ s.Fetching 0x3E ∧ t.addr = s.tape.pos.len ∧ t.tape.pos.len = s.tape.pos.len + 1 ∧
      t.tape.neg.len = s.tape.neg.len ∧ ∀ a, t.tape.value a = s.tape.value a) ∨
    (s.skip = 0 ∧ s.Fetching 0x3C ∧ t.addr = -(s.tape.neg.len : Int) - 1 ∧ t.tape.neg.len = s.tape.neg.len + 1 ∧
      t.tape.pos.len = s.tape.pos.len ∧ ∀ a, t.tape.value a = s.tape.value a)

/-- `Resolve(a)` in full (20_memory.md R52, R55, R56, with the capacity of the spec's decision D3): it changes no
byte of the abstract tape, keeps the canonical form, materialises `a`, leaves the other half alone, is idempotent
(R61), and fails only on a bounded tape too small for `a`. -/
def Obligations.ResolveMaterialisesAndKeepsValues : Prop :=
  ∀ (m : Memory) (cap : TapeCapacity) (a : Int), m.wf →
    TapeCapacity.Allows cap m.pos.len → TapeCapacity.Allows cap m.neg.len →
    (∀ m', m.resolve cap a = .ok m' →
      m'.wf ∧ m'.Materialised a ∧ (∀ b, m'.value b = m.value b) ∧ m'.resolve cap a = .ok m' ∧
      (0 ≤ a → m'.neg = m.neg) ∧ (a < 0 → m'.pos = m.pos)) ∧
    ((∃ m', m.resolve cap a = .ok m') ↔ TapeCapacity.Allows cap ((Memory.locate a).index + 1)) ∧
    (∀ c, m.resolve cap a = .error c → c = .tapeExhausted)

/-- 20_memory.md R53, persistence: a byte written is the byte every later read of that address returns until the
next write to it; no growth, no move of `addr` and no other instruction changes it. -/
def Obligations.WrittenBytePersists : Prop :=
  (∀ (m m' : Memory) (a : Int) (v : Byte), m.wf → m.memWrite a v = some m' → m'.wf ∧ m'.memRead a = some v) ∧
  (∀ (m m' : Memory) (cap : TapeCapacity) (a b : Int) (v : Byte), m.memRead b = some v →
    m.resolve cap a = .ok m' → m'.memRead b = some v) ∧
  (∀ (s t : State) (b : Int) (v : Byte), s.tape.memRead b = some v → step s = .next t →
    t.tape.memRead b = some v ∨
      (b = s.addr ∧ s.skip = 0 ∧ (s.Fetching 0x2B ∨ s.Fetching 0x2D ∨ s.Fetching 0x2C)))

/-- With an unbounded capacity no run meets `TapeExhausted` (20_memory.md R55, 60_exceptions.md R193, the spec's
decision D3). -/
def Obligations.UnboundedTapeNeverExhausted : Prop :=
  ∀ s t : State, s.params.tapeHalfCapacity = .unbounded → s.fault ≠ some .tapeExhausted → Reaches s t →
    t.fault ≠ some .tapeExhausted

/-! ### Cell arithmetic (42_cell_arithmetic.md) -/

/-- 42_cell_arithmetic.md R130, `INC`: the current cell becomes its value + 1 modulo 256 and `pc` advances; every
other byte and all other state is unchanged, and there is no fault; 256 consecutive `+` on a cell restore the whole
state but `pc`. -/
def Obligations.IncAddsOneModulo256 : Prop :=
  decodeByte 0x2B = .inc ∧
  ∀ (s : State) (v : Byte), s.tape.wf → s.skip = 0 → s.tape.memRead s.addr = some v →
    (∃ m : Memory, exec .inc s = .next { s with tape := m, pc := s.pc + 1 } ∧
      m.memRead s.addr = some (BitVec.ofNat 8 ((v.toNat + 1) % 256)) ∧
      (∀ a, a ≠ s.addr → m.memRead a = s.tape.memRead a)) ∧
    execTimes .inc 256 s = .next { s with pc := s.pc + 256 }

/-- 42_cell_arithmetic.md R131, `DEC`: the current cell becomes its value - 1 modulo 256 and `pc` advances; every
other byte and all other state is unchanged, and there is no fault; `+` then `-`, or `-` then `+`, restores the whole
state but `pc`. -/
def Obligations.DecSubtractsOneModulo256 : Prop :=
  decodeByte 0x2D = .dec ∧
  ∀ (s : State) (v : Byte), s.tape.wf → s.skip = 0 → s.tape.memRead s.addr = some v →
    (∃ m : Memory, exec .dec s = .next { s with tape := m, pc := s.pc + 1 } ∧
      m.memRead s.addr = some (BitVec.ofInt 8 (((v.toNat : Int) - 1) % 256)) ∧
      (∀ a, a ≠ s.addr → m.memRead a = s.tape.memRead a)) ∧
    (∀ t, exec .inc s = .next t → exec .dec t = .next { s with pc := s.pc + 2 }) ∧
    (∀ t, exec .dec s = .next t → exec .inc t = .next { s with pc := s.pc + 2 })

/-- The frame of the three instructions that store to a cell, in every state: the cell stored to is the one at
`addr`, so every other address reads as before; no address becomes or stops being materialised; `addr`, `skip`, the
stack, the fault record, `out` and the parameters are unchanged, and the input source too but for `,`
(42_cell_arithmetic.md R130, R131; 43_byte_io.md R141). -/
def Obligations.CellWritersFrame : Prop :=
  ∀ (i : Instr) (s t : State), i = .inc ∨ i = .dec ∨ i = .inp → exec i s = .next t →
    (∀ a, a ≠ s.addr → t.tape.memRead a = s.tape.memRead a) ∧
    (∀ a, t.tape.Materialised a ↔ s.tape.Materialised a) ∧
    (0 < s.skip → t.tape = s.tape) ∧
    t.pc = s.pc + 1 ∧ t.addr = s.addr ∧ t.skip = s.skip ∧ t.ls = s.ls ∧ t.fault = s.fault ∧ t.out = s.out ∧
    t.params = s.params ∧ (i ≠ .inp → t.input = s.input)

/-- The frame of the instructions that store nothing: all of the tape, `addr`, the input source and the parameters
are unchanged; `.` leaves the stack, `skip` and the fault record too, `[` and `]` leave the output too
(43_byte_io.md R140; 44_loop_control.md R150, R151; 45_skip_mode_nop.md R178). -/
def Obligations.NonStoringFrame : Prop :=
  ∀ (i : Instr) (s t : State), exec i s = .next t →
    i = .out ∨ i = .openLoop ∨ i = .closeLoop ∨ (∃ b, i = .nop b) →
    (∀ a, t.tape.memRead a = s.tape.memRead a) ∧ t.tape = s.tape ∧ t.addr = s.addr ∧ t.input = s.input ∧
    t.params = s.params ∧ (i ≠ .out → t.out = s.out) ∧
    (i = .out ∨ (∃ b, i = .nop b) → t.ls = s.ls ∧ t.skip = s.skip ∧ t.fault = s.fault ∧ t.pc = s.pc + 1)

/-! ### Byte I/O (43_byte_io.md) -/

/-- 43_byte_io.md R140, `OUT`: the current cell's byte is appended to the output and `pc` advances; nothing else
changes and there is no fault. Two in a row emit the byte twice. -/
def Obligations.OutEmitsTheCurrentCell : Prop :=
  decodeByte 0x2E = .out ∧
  ∀ (s : State) (v : Byte), s.skip = 0 → s.tape.memRead s.addr = some v →
    exec .out s = .next { s with out := s.out ++ [v], pc := s.pc + 1 } ∧
    execTimes .out 2 s = .next { s with out := s.out ++ [v, v], pc := s.pc + 2 }

/-- 43_byte_io.md R141, `IN`: one answer of the input source is consumed and `pc` advances; a byte becomes the
current cell's value, whatever it is; end-of-stream leaves the cell, and the whole tape, unchanged; nothing else
changes and there is no fault. -/
def Obligations.InStoresTheAnswer : Prop :=
  decodeByte 0x2C = .inp ∧
  ∀ (s : State) (q : InputSource), s.tape.wf → s.skip = 0 → s.tape.Materialised s.addr →
    (∀ b, inputNext s.input = some (.byte b, q) →
      ∃ m : Memory, exec .inp s = .next { s with tape := m, input := q, pc := s.pc + 1 } ∧
        m.memRead s.addr = some b ∧ ∀ a, a ≠ s.addr → m.memRead a = s.tape.memRead a) ∧
    (inputNext s.input = some (.endOfStream, q) → exec .inp s = .next { s with input := q, pc := s.pc + 1 })

/-- The input source answers in order, each lined-up answer once; then the environment decides: a free answer, the
reference environment's end-of-stream for ever, or none yet (43_byte_io.md R142, the spec's decision D9; the three
forms and the counter are this model's, log entry 4). -/
def Obligations.InputAnswersInOrder : Prop :=
  ∀ q : InputSource,
    (∀ item rest, q.queue = item :: rest →
      inputNext q = some (item, { q with queue := rest, asked := q.asked + 1 })) ∧
    (q.queue = [] → q.afterQueue = .endOfStream →
      inputNext q = some (.endOfStream, { q with asked := q.asked + 1 })) ∧
    (q.queue = [] → q.afterQueue = .free → ∃ item, inputNext q = some (item, { q with asked := q.asked + 1 })) ∧
    (inputNext q = none ↔ q.queue = [] ∧ q.afterQueue = .silent)

/-- `,` waits exactly while the input source has no answer: then there is no step and nothing changes, and the
delivery of an answer ends the wait (40_sequencer.md R109, 43_byte_io.md R144, 60_exceptions.md R206; the refusal by
name is this model's form of "not enabled", log entry 5). In skip mode it never waits. -/
def Obligations.InWaitsUntilAnswered : Prop :=
  ∀ s : State, s.tape.wf → s.tape.Materialised s.addr → s.Fetching 0x2C →
    (step s = .refused .waitingForInput ↔ s.skip = 0 ∧ s.input.queue = [] ∧ s.input.afterQueue = .silent) ∧
    (∀ item, ∃ t, step (s.deliver item) = .next t) ∧
    (step s = .refused .waitingForInput → ∀ item t, step (s.deliver item) = .next t →
      t.input.queue = [] ∧ t.input.asked = s.input.asked + 1 ∧
        t.tape.value s.addr = (match item with | .byte b => b | .endOfStream => s.tape.value s.addr))

/-- 43_byte_io.md R145, the I/O multiplexer: only a `.` in normal mode writes to the output, one byte, the current
cell's; only a `,` in normal mode takes from the input, one answer; no step uses both channels. -/
def Obligations.OneChannelOneByteAStep : Prop :=
  ∀ s t : State, step s = .next t →
    (t.out = s.out ∧ t.input = s.input) ∨
    (s.skip = 0 ∧ s.Fetching 0x2E ∧ t.input = s.input ∧ ∃ v, s.cur = some v ∧ t.out = s.out ++ [v]) ∨
    (s.skip = 0 ∧ s.Fetching 0x2C ∧ t.out = s.out ∧ ∃ item, inputNext s.input = some (item, t.input) ∧
      (∀ b, item = .byte b → s.tape.wf → t.cur = some b) ∧ (item = .endOfStream → t.tape = s.tape))

/-- The CORE does not read what it has written to the output: earlier output has no effect on a step (10_state.md
R39). -/
def Obligations.OutputIsNeverReadBack : Prop :=
  ∀ (s : State) (earlier : List Byte),
    step { s with out := earlier ++ s.out } = mapNext (fun t => { t with out := earlier ++ t.out }) (step s)

/-- The CORE never looks ahead in the input: an answer lined up behind another has no effect on a step, nor has any
answer on a step that is not a `,` in normal mode (10_state.md R39, 43_byte_io.md R142). -/
def Obligations.InputIsNeverLookedAhead : Prop :=
  ∀ (s : State) (item : InputItem), s.input.queue ≠ [] ∨ ¬ (s.skip = 0 ∧ s.Fetching 0x2C) →
    step (s.deliver item) = mapNext (fun t => t.deliver item) (step s)

/-- 10_state.md R38: `DEBUG` is purely observational. Two runs that differ only in it go through the same states, and
so consume the same input and produce the same output. -/
def Obligations.DebugIsUnobservable : Prop :=
  (∀ (s : State) (d : Nat), step (s.withDebug d) = mapNext (fun t => t.withDebug d) (step s)) ∧
  (∀ (s t : State) (d : Nat), Reaches s t →
    Reaches (s.withDebug d) (t.withDebug d) ∧ (t.withDebug d).out = t.out ∧ (t.withDebug d).input = t.input)

/-! ### Loop control (44_loop_control.md) -/

/-- 44_loop_control.md R150, `OPEN`: a zero cell enters skip mode and leaves the stack; a non-zero cell pushes the
index after the `[`; the only fault is `LoopStackOverflow` on a non-zero cell with a full stack, which writes nothing
else. A `[` on a zero cell never faults, however full the stack. -/
def Obligations.OpenSkipsOrPushes : Prop :=
  decodeByte 0x5B = .openLoop ∧
  ∀ (s : State) (v : Byte), s.skip = 0 → s.tape.memRead s.addr = some v →
    (v = 0 → exec .openLoop s = .next { s with skip := 1, pc := s.pc + 1 }) ∧
    (v ≠ 0 → s.lsp ≠ s.params.loopStackCapacity →
      exec .openLoop s = .next { s with ls := s.ls ++ [s.pc + 1], pc := s.pc + 1 }) ∧
    (v ≠ 0 → s.lsp = s.params.loopStackCapacity →
      exec .openLoop s = .next { s with fault := some .loopStackOverflow }) ∧
    (s.Fetching 0x5B → 1 ≤ s.pc + 1 ∧ s.pc + 1 ≤ s.progLen)

/-- `CLOSE` (44_loop_control.md R151, R154; the spec's decisions D1 and D2, 90_conflicts.md C1): on a non-zero cell
`pc` becomes the top entry and the entry stays; on a zero cell the entry is discarded and `pc` advances; on an empty
stack `LoopStackUnderflow`, whatever the cell holds. -/
def Obligations.CloseRepeatsOrLeaves : Prop :=
  decodeByte 0x5D = .closeLoop ∧
  (∀ (s : State) (v : Byte) (ls : List Nat) (e : Nat), s.skip = 0 → s.tape.memRead s.addr = some v → s.ls = ls ++ [e] →
    (v ≠ 0 → exec .closeLoop s = .next { s with pc := e }) ∧
    (v = 0 → exec .closeLoop s = .next { s with ls := ls, pc := s.pc + 1 })) ∧
  (∀ s : State, s.skip = 0 → s.ls = [] → exec .closeLoop s = .next { s with fault := some .loopStackUnderflow })

/-- The discipline of the loop-start stack (44_loop_control.md R152, the spec's decision D1): an entry is pushed only
by a `[` in normal mode on a non-zero cell, removed only by a `]` in normal mode on a zero cell, and in every other
step the stack is left as it is. -/
def Obligations.LoopStackDiscipline : Prop :=
  ∀ s t : State, step s = .next t →
    t.ls = s.ls ∨
    (s.skip = 0 ∧ s.Fetching 0x5B ∧ s.cur ≠ some 0 ∧ s.lsp ≠ s.params.loopStackCapacity ∧ t.ls = s.ls ++ [s.pc + 1]) ∨
    (s.skip = 0 ∧ s.Fetching 0x5D ∧ s.cur = some 0 ∧ ∃ e, s.ls = t.ls ++ [e])

/-- A step that executes a `]` in normal mode with a loop entered: on a non-zero cell it goes on just after the `[`
that this `]` balances in the text, the stack as it was; on a zero cell it removes the entry of that `[` and goes on
after the `]` (44_loop_control.md R151, R152, R155; that the entry is kept on repeat is the spec's decision D1, log
entry 8). It holds in every state that meets the pairing invariant, whatever the program. -/
def Obligations.CloseFindsItsOwnBracket : Prop :=
  ∀ s t : State, s.Paired → s.skip = 0 → s.Fetching 0x5D → s.ls ≠ [] → step s = .next t →
    (s.cur ≠ some 0 → t.ls = s.ls ∧ 1 ≤ t.pc ∧ Balances s.params.prog (t.pc - 1) s.pc) ∧
    (s.cur = some 0 →
      t.pc = s.pc + 1 ∧ ∃ e, s.ls = t.ls ++ [e] ∧ 1 ≤ e ∧ Balances s.params.prog (e - 1) s.pc)

/-- In a program whose brackets are balanced `LoopStackUnderflow` cannot occur, and at the end of the run the stack
is empty and `skip` is 0 (44_loop_control.md R155). -/
def Obligations.BalancedProgramNeverUnderflows : Prop :=
  ∀ (p : Params) (q : InputSource) (s : State), BracketsBalanced p.prog → Reaches (State.boot p q) s →
    s.fault ≠ some .loopStackUnderflow ∧ (s.status = .halted → s.ls = [] ∧ s.skip = 0)

/-- The other repair of the source's text gives the same machine (44_loop_control.md R159): where Reading A's `]`
differs, two of its steps, the `]` and the `[` executed again, make the one step of the model; everywhere else the
steps are the same. -/
def Obligations.ReadingAGivesTheSameMachine : Prop :=
  ∀ s : State, s.Inv →
    (∀ t, s.Fetching 0x5D → s.skip = 0 → s.cur ≠ some 0 → s.ls ≠ [] → step s = .next t →
      ∃ u, stepA s = .next u ∧ u.Fetching 0x5B ∧ u.lsp + 1 = s.lsp ∧ u.tape = s.tape ∧ u.addr = s.addr ∧
        stepA u = .next t) ∧
    (¬ (s.Fetching 0x5D ∧ s.skip = 0 ∧ s.cur ≠ some 0 ∧ s.ls ≠ []) → stepA s = step s)

/-! ### Faults (60_exceptions.md) -/

/-- A fault is precise: the faulting step writes nothing except `fault`; so `pc` is the index of the faulting
instruction (60_exceptions.md R197, the spec's decision D6). -/
def Obligations.FaultsArePrecise : Prop :=
  ∀ (s t : State) (c : Fault), step s = .next t → t.fault = some c → t = { s with fault := some c } ∧ s.fault = none

/-- The complete list of faults, each with exactly when it is raised (60_exceptions.md R190 to R193, R196; the names
and two of the three are the spec's decisions D2, D3, D7). -/
def Obligations.FaultCauses : Prop :=
  ∀ s t : State, s.Inv → step s = .next t →
    (t.fault = some .loopStackOverflow ↔
      s.Fetching 0x5B ∧ s.skip = 0 ∧ s.cur ≠ some 0 ∧ s.lsp = s.params.loopStackCapacity) ∧
    (t.fault = some .loopStackUnderflow ↔ s.Fetching 0x5D ∧ s.skip = 0 ∧ s.lsp = 0) ∧
    (t.fault = some .tapeExhausted ↔
      (s.Fetching 0x3E ∧ s.skip = 0 ∧ ¬ s.tape.Materialised (s.addr + 1) ∧
        s.params.tapeHalfCapacity = .cells s.tape.pos.len) ∨
      (s.Fetching 0x3C ∧ s.skip = 0 ∧ ¬ s.tape.Materialised (s.addr - 1) ∧
        s.params.tapeHalfCapacity = .cells s.tape.neg.len))

/-- An access to an unmaterialised cell is refused by name, no value is invented (20_memory.md R57); `,` accesses the
cell only on a byte (R58), and `]` only after its emptiness test (44_loop_control.md R154). -/
def Obligations.UnmaterialisedCellIsRefused : Prop :=
  ∀ s : State, s.skip = 0 → ¬ s.tape.Materialised s.addr →
    (∀ i, i = .inc ∨ i = .dec ∨ i = .out ∨ i = .openLoop → exec i s = .refused .unmaterialisedCell) ∧
    (s.ls ≠ [] → exec .closeLoop s = .refused .unmaterialisedCell) ∧
    (∀ b q, inputNext s.input = some (.byte b, q) → exec .inp s = .refused .unmaterialisedCell)

/-! ### The whole machine -/

/-- After reset every piece of state has the value of 10_state.md R37, and the tape is what `Resolve(0)` makes of
two empty halves (70_reset_and_hazards.md R230; materialising address 0 is the spec's decision D5, and the program, the
parameters and the input source are the environment's, log entries 2, 3, 4, 16, 18). -/
def Obligations.ResetState : Prop :=
  ∀ (p : Params) (q : InputSource), p.Legal →
    (State.boot p q).pc = 0 ∧ (State.boot p q).addr = 0 ∧ (State.boot p q).skip = 0 ∧ (State.boot p q).lsp = 0 ∧
    (State.boot p q).tape.pos.len = 1 ∧ (State.boot p q).tape.neg.len = 0 ∧
    (State.boot p q).tape.memRead 0 = some 0 ∧ (∀ a, (State.boot p q).tape.value a = 0) ∧
    Memory.resolve ⟨⟨0, []⟩, ⟨0, []⟩⟩ p.tapeHalfCapacity 0 = .ok (State.boot p q).tape ∧
    (State.boot p q).fault = none ∧ (State.boot p q).out = [] ∧
    ((State.boot p q).status = .halted ↔ p.prog = []) ∧ ((State.boot p q).status = .running ↔ p.prog ≠ []) ∧
    State.reset = State.boot Params.reset InputSource.reset

/-- The invariants hold after reset, whatever the environment supplies (10_state.md R31, R37). -/
def Obligations.InvariantsHoldAtReset : Prop :=
  ∀ (p : Params) (q : InputSource), p.Legal → (State.boot p q).Inv ∧ (State.boot p q).Paired

/-- Every step keeps the invariant of the machine: the tape's canonical form, the current cell in storage, the
bounds of `pc`, `skip`, the stack and the halves, and the stack's entries rising resume points (10_state.md R26, R31,
R32; 20_memory.md R71; 40_sequencer.md R112; 45_skip_mode_nop.md R176). -/
def Obligations.EveryStepKeepsTheInvariant : Prop :=
  ∀ s t : State, s.Inv → step s = .next t → t.Inv

/-- Every step keeps the pairing of the stack and the skip depth with the brackets of the text (44_loop_control.md
R152, R155). -/
def Obligations.EveryStepKeepsThePairing : Prop :=
  ∀ s t : State, s.Paired → step s = .next t → t.Paired

/-- The bounds that make finite registers sufficient hold in every state of every run (00_scope.md R11, 20_memory.md
R71, 40_sequencer.md R112, 45_skip_mode_nop.md R176): none of `pc`, `skip`, `lsp`, `addr` ever needs to wrap. -/
def Obligations.RegisterBoundsOnEveryRun : Prop :=
  ∀ (p : Params) (q : InputSource) (s : State), p.Legal → Reaches (State.boot p q) s →
    s.pc ≤ p.prog.length ∧ s.skip ≤ p.prog.length ∧ s.lsp ≤ p.loopStackCapacity ∧
    (∀ e ∈ s.ls, 1 ≤ e ∧ e ≤ p.prog.length) ∧
    s.tape.Materialised s.addr ∧
    ∀ n : Nat, p.tapeHalfCapacity = .cells n → -(n : Int) ≤ s.addr ∧ s.addr ≤ (n : Int) - 1

/-- The shape of the tape in every state of every run (10_state.md R32): the addresses in storage are exactly
`-neg_len .. pos_len - 1`, no address of the run lies outside them, and both ends have been visited. -/
def Obligations.TapeShapeOnEveryRun : Prop :=
  ∀ (p : Params) (q : InputSource) (s : State), p.Legal → Reaches (State.boot p q) s →
    1 ≤ s.tape.pos.len ∧
    (∀ a : Int, s.tape.Materialised a ↔ -(s.tape.neg.len : Int) ≤ a ∧ a ≤ (s.tape.pos.len : Int) - 1) ∧
    (∀ u, Reaches (State.boot p q) u → Reaches u s → s.tape.Materialised u.addr) ∧
    (∃ u, Reaches (State.boot p q) u ∧ Reaches u s ∧ u.addr = (s.tape.pos.len : Int) - 1) ∧
    (∃ u, Reaches (State.boot p q) u ∧ Reaches u s ∧ u.addr = -(s.tape.neg.len : Int))

/-- In every state a run reaches, a step in status RUNNING answers a next state, or it is a `,` in normal mode that
waits for the environment: no cell access fails and every byte of every program has its effect (20_memory.md R57, R68;
40_sequencer.md R109; 70_reset_and_hazards.md R234). The refusal `waitingForInput` is this model's form of "not enabled"
(log entry 5), the queue and `silent` are its form of the input source (log entry 4). -/
def Obligations.RunningStepAlwaysCompletes : Prop :=
  ∀ s : State, s.Inv → s.status = .running →
    (∃ t, step s = .next t) ∨
    (step s = .refused .waitingForInput ∧ s.Fetching 0x2C ∧ s.skip = 0 ∧ s.input.queue = [] ∧
      s.input.afterQueue = .silent)

/-- With an unbounded capacity the two arrays and their lengths are unobservable (20_memory.md R56, the spec's
decision D20): states with the same abstract tape answer alike, for ever. -/
def Obligations.TapeStorageIsUnobservable : Prop :=
  ∀ s t : State, s.params.tapeHalfCapacity = .unbounded → SameButTapeStorage s t →
    SameAnswer (step s) (step t)
end

