-- ==== Sys2Proof/Laws/Decode.lean ====
section
/-! SUPPORT. The laws of the decoder and the encoder on one byte. -/

namespace Sys2Proof

/-- The bytes of the alphabet, written out. -/
theorem alphabet_eq : alphabet = [0x3E, 0x3C, 0x2B, 0x2D, 0x2E, 0x2C, 0x5B, 0x5D] := rfl

/-- No two rows of the table share a byte. -/
theorem opcodeTable_pairwise : opcodeTable.Pairwise (fun a b => a.1 ≠ b.1) := by decide

/-- A byte outside the alphabet selects `NOP`. -/
theorem decodeByte_of_not_mem {b : Byte} (h : b ∉ alphabet) : decodeByte b = .nop b := by
  unfold decodeByte
  have hn : opcodeTable.find? (fun row => row.1 == b) = none := by
    rw [List.find?_eq_none]
    intro row hr hb
    exact h (List.mem_map.mpr ⟨row, hr, by simpa using hb⟩)
  rw [hn]

theorem Instr.wf_nop {b : Byte} : (Instr.nop b).wf = true ↔ b ∉ alphabet := by
  simp [Instr.wf]

theorem decode_cons (b : Byte) (rest : List Byte) : decode (b :: rest) = .ok (decodeByte b, rest) := rfl

/-- Which byte selects each instruction but `NOP`. -/
theorem decodeByte_eq_openLoop {b : Byte} : decodeByte b = .openLoop ↔ b = symOpen := by
  revert b; decide

theorem decodeByte_eq_closeLoop {b : Byte} : decodeByte b = .closeLoop ↔ b = symClose := by
  revert b; decide

theorem decodeByte_eq_inp {b : Byte} : decodeByte b = .inp ↔ b = symIn := by
  revert b; decide

end Sys2Proof
end

