-- ==== Sys2Proof/Laws/State.lean ====
section
/-! SUPPORT. One lemma per field per named update of the state: what each update leaves alone, so that no proof
unfolds a record update. -/

namespace Sys2Proof.Machine

@[simp] theorem State.npc_eq (s : State) : s.npc = s.pc + 1 := rfl

section
variable (s : State)
@[simp] theorem State.advance_pc : (s.advance).pc = s.npc := rfl
@[simp] theorem State.advance_addr : (s.advance).addr = s.addr := rfl
@[simp] theorem State.advance_skip : (s.advance).skip = s.skip := rfl
@[simp] theorem State.advance_ls : (s.advance).ls = s.ls := rfl
@[simp] theorem State.advance_tape : (s.advance).tape = s.tape := rfl
@[simp] theorem State.advance_fault : (s.advance).fault = s.fault := rfl
@[simp] theorem State.advance_out : (s.advance).out = s.out := rfl
@[simp] theorem State.advance_input : (s.advance).input = s.input := rfl
@[simp] theorem State.advance_params : (s.advance).params = s.params := rfl
end

section
variable (s : State) (x : Nat)
@[simp] theorem State.jump_pc : (s.jump x).pc = x := rfl
@[simp] theorem State.jump_addr : (s.jump x).addr = s.addr := rfl
@[simp] theorem State.jump_skip : (s.jump x).skip = s.skip := rfl
@[simp] theorem State.jump_ls : (s.jump x).ls = s.ls := rfl
@[simp] theorem State.jump_tape : (s.jump x).tape = s.tape := rfl
@[simp] theorem State.jump_fault : (s.jump x).fault = s.fault := rfl
@[simp] theorem State.jump_out : (s.jump x).out = s.out := rfl
@[simp] theorem State.jump_input : (s.jump x).input = s.input := rfl
@[simp] theorem State.jump_params : (s.jump x).params = s.params := rfl
end

section
variable (s : State) (x : Int)
@[simp] theorem State.withAddr_pc : (s.withAddr x).pc = s.pc := rfl
@[simp] theorem State.withAddr_addr : (s.withAddr x).addr = x := rfl
@[simp] theorem State.withAddr_skip : (s.withAddr x).skip = s.skip := rfl
@[simp] theorem State.withAddr_ls : (s.withAddr x).ls = s.ls := rfl
@[simp] theorem State.withAddr_tape : (s.withAddr x).tape = s.tape := rfl
@[simp] theorem State.withAddr_fault : (s.withAddr x).fault = s.fault := rfl
@[simp] theorem State.withAddr_out : (s.withAddr x).out = s.out := rfl
@[simp] theorem State.withAddr_input : (s.withAddr x).input = s.input := rfl
@[simp] theorem State.withAddr_params : (s.withAddr x).params = s.params := rfl
end

section
variable (s : State) (x : Nat)
@[simp] theorem State.withSkip_pc : (s.withSkip x).pc = s.pc := rfl
@[simp] theorem State.withSkip_addr : (s.withSkip x).addr = s.addr := rfl
@[simp] theorem State.withSkip_skip : (s.withSkip x).skip = x := rfl
@[simp] theorem State.withSkip_ls : (s.withSkip x).ls = s.ls := rfl
@[simp] theorem State.withSkip_tape : (s.withSkip x).tape = s.tape := rfl
@[simp] theorem State.withSkip_fault : (s.withSkip x).fault = s.fault := rfl
@[simp] theorem State.withSkip_out : (s.withSkip x).out = s.out := rfl
@[simp] theorem State.withSkip_input : (s.withSkip x).input = s.input := rfl
@[simp] theorem State.withSkip_params : (s.withSkip x).params = s.params := rfl
end

section
variable (s : State) (x : List Nat)
@[simp] theorem State.withStack_pc : (s.withStack x).pc = s.pc := rfl
@[simp] theorem State.withStack_addr : (s.withStack x).addr = s.addr := rfl
@[simp] theorem State.withStack_skip : (s.withStack x).skip = s.skip := rfl
@[simp] theorem State.withStack_ls : (s.withStack x).ls = x := rfl
@[simp] theorem State.withStack_tape : (s.withStack x).tape = s.tape := rfl
@[simp] theorem State.withStack_fault : (s.withStack x).fault = s.fault := rfl
@[simp] theorem State.withStack_out : (s.withStack x).out = s.out := rfl
@[simp] theorem State.withStack_input : (s.withStack x).input = s.input := rfl
@[simp] theorem State.withStack_params : (s.withStack x).params = s.params := rfl
end

section
variable (s : State) (x : Memory)
@[simp] theorem State.withTape_pc : (s.withTape x).pc = s.pc := rfl
@[simp] theorem State.withTape_addr : (s.withTape x).addr = s.addr := rfl
@[simp] theorem State.withTape_skip : (s.withTape x).skip = s.skip := rfl
@[simp] theorem State.withTape_ls : (s.withTape x).ls = s.ls := rfl
@[simp] theorem State.withTape_tape : (s.withTape x).tape = x := rfl
@[simp] theorem State.withTape_fault : (s.withTape x).fault = s.fault := rfl
@[simp] theorem State.withTape_out : (s.withTape x).out = s.out := rfl
@[simp] theorem State.withTape_input : (s.withTape x).input = s.input := rfl
@[simp] theorem State.withTape_params : (s.withTape x).params = s.params := rfl
end

section
variable (s : State) (x : Fault)
@[simp] theorem State.withFault_pc : (s.withFault x).pc = s.pc := rfl
@[simp] theorem State.withFault_addr : (s.withFault x).addr = s.addr := rfl
@[simp] theorem State.withFault_skip : (s.withFault x).skip = s.skip := rfl
@[simp] theorem State.withFault_ls : (s.withFault x).ls = s.ls := rfl
@[simp] theorem State.withFault_tape : (s.withFault x).tape = s.tape := rfl
@[simp] theorem State.withFault_fault : (s.withFault x).fault = some x := rfl
@[simp] theorem State.withFault_out : (s.withFault x).out = s.out := rfl
@[simp] theorem State.withFault_input : (s.withFault x).input = s.input := rfl
@[simp] theorem State.withFault_params : (s.withFault x).params = s.params := rfl
end

section
variable (s : State) (x : List Byte)
@[simp] theorem State.withOut_pc : (s.withOut x).pc = s.pc := rfl
@[simp] theorem State.withOut_addr : (s.withOut x).addr = s.addr := rfl
@[simp] theorem State.withOut_skip : (s.withOut x).skip = s.skip := rfl
@[simp] theorem State.withOut_ls : (s.withOut x).ls = s.ls := rfl
@[simp] theorem State.withOut_tape : (s.withOut x).tape = s.tape := rfl
@[simp] theorem State.withOut_fault : (s.withOut x).fault = s.fault := rfl
@[simp] theorem State.withOut_out : (s.withOut x).out = x := rfl
@[simp] theorem State.withOut_input : (s.withOut x).input = s.input := rfl
@[simp] theorem State.withOut_params : (s.withOut x).params = s.params := rfl
end

section
variable (s : State) (x : InputSource)
@[simp] theorem State.withInput_pc : (s.withInput x).pc = s.pc := rfl
@[simp] theorem State.withInput_addr : (s.withInput x).addr = s.addr := rfl
@[simp] theorem State.withInput_skip : (s.withInput x).skip = s.skip := rfl
@[simp] theorem State.withInput_ls : (s.withInput x).ls = s.ls := rfl
@[simp] theorem State.withInput_tape : (s.withInput x).tape = s.tape := rfl
@[simp] theorem State.withInput_fault : (s.withInput x).fault = s.fault := rfl
@[simp] theorem State.withInput_out : (s.withInput x).out = s.out := rfl
@[simp] theorem State.withInput_input : (s.withInput x).input = x := rfl
@[simp] theorem State.withInput_params : (s.withInput x).params = s.params := rfl
end

section
variable (s : State) (x : List Byte)
@[simp] theorem State.withProg_pc : (s.withProg x).pc = s.pc := rfl
@[simp] theorem State.withProg_addr : (s.withProg x).addr = s.addr := rfl
@[simp] theorem State.withProg_skip : (s.withProg x).skip = s.skip := rfl
@[simp] theorem State.withProg_ls : (s.withProg x).ls = s.ls := rfl
@[simp] theorem State.withProg_tape : (s.withProg x).tape = s.tape := rfl
@[simp] theorem State.withProg_fault : (s.withProg x).fault = s.fault := rfl
@[simp] theorem State.withProg_out : (s.withProg x).out = s.out := rfl
@[simp] theorem State.withProg_input : (s.withProg x).input = s.input := rfl
@[simp] theorem State.withProg_params : (s.withProg x).params = { s.params with prog := x } := rfl
end

section
variable (s : State) (x : Nat)
@[simp] theorem State.withDebug_pc : (s.withDebug x).pc = s.pc := rfl
@[simp] theorem State.withDebug_addr : (s.withDebug x).addr = s.addr := rfl
@[simp] theorem State.withDebug_skip : (s.withDebug x).skip = s.skip := rfl
@[simp] theorem State.withDebug_ls : (s.withDebug x).ls = s.ls := rfl
@[simp] theorem State.withDebug_tape : (s.withDebug x).tape = s.tape := rfl
@[simp] theorem State.withDebug_fault : (s.withDebug x).fault = s.fault := rfl
@[simp] theorem State.withDebug_out : (s.withDebug x).out = s.out := rfl
@[simp] theorem State.withDebug_input : (s.withDebug x).input = s.input := rfl
@[simp] theorem State.withDebug_params : (s.withDebug x).params = { s.params with debug := x } := rfl
end

section
variable (s : State) (x : Byte)
@[simp] theorem State.setCur_pc : (s.setCur x).pc = s.pc := rfl
@[simp] theorem State.setCur_addr : (s.setCur x).addr = s.addr := rfl
@[simp] theorem State.setCur_skip : (s.setCur x).skip = s.skip := rfl
@[simp] theorem State.setCur_ls : (s.setCur x).ls = s.ls := rfl
@[simp] theorem State.setCur_tape : (s.setCur x).tape = s.tape.put s.addr x := rfl
@[simp] theorem State.setCur_fault : (s.setCur x).fault = s.fault := rfl
@[simp] theorem State.setCur_out : (s.setCur x).out = s.out := rfl
@[simp] theorem State.setCur_input : (s.setCur x).input = s.input := rfl
@[simp] theorem State.setCur_params : (s.setCur x).params = s.params := rfl
end

section
variable (s : State) (v : Byte)
@[simp] theorem outputByte_pc : (outputByte s v).pc = s.pc := rfl
@[simp] theorem outputByte_addr : (outputByte s v).addr = s.addr := rfl
@[simp] theorem outputByte_skip : (outputByte s v).skip = s.skip := rfl
@[simp] theorem outputByte_ls : (outputByte s v).ls = s.ls := rfl
@[simp] theorem outputByte_tape : (outputByte s v).tape = s.tape := rfl
@[simp] theorem outputByte_fault : (outputByte s v).fault = s.fault := rfl
@[simp] theorem outputByte_out : (outputByte s v).out = s.out ++ [v] := rfl
@[simp] theorem outputByte_input : (outputByte s v).input = s.input := rfl
@[simp] theorem outputByte_params : (outputByte s v).params = s.params := rfl
end

section
variable (s : State) (item : InputItem)
@[simp] theorem State.receive_byte (b : Byte) : s.receive (.byte b) = s.setCur b := rfl
@[simp] theorem State.receive_endOfStream : s.receive .endOfStream = s := rfl
@[simp] theorem State.receive_pc : (s.receive item).pc = s.pc := rfl
@[simp] theorem State.receive_addr : (s.receive item).addr = s.addr := rfl
@[simp] theorem State.receive_skip : (s.receive item).skip = s.skip := rfl
@[simp] theorem State.receive_ls : (s.receive item).ls = s.ls := rfl
@[simp] theorem State.receive_fault : (s.receive item).fault = s.fault := rfl
@[simp] theorem State.receive_out : (s.receive item).out = s.out := rfl
@[simp] theorem State.receive_input : (s.receive item).input = s.input := rfl
@[simp] theorem State.receive_params : (s.receive item).params = s.params := rfl
end

end Sys2Proof.Machine
end

