-- ==== Sys2Proof/Laws/Tape.lean ====
section
/-! SUPPORT. The laws of the tape: the address mapping, read after write, growth, and that every operation keeps
the canonical form. -/

namespace Sys2Proof.Machine

/-! ### The address mapping (20_memory.md R51) -/

theorem locate_ofNat (n : Nat) : Memory.locate (n : Int) = ⟨.positive, n⟩ := by
  simp [Memory.locate]

theorem locate_negSucc (n : Nat) : Memory.locate (-(n : Int) - 1) = ⟨.negative, n⟩ := by
  have h : ¬ (0 : Int) ≤ -(n : Int) - 1 := by omega
  simp only [Memory.locate, if_neg h]
  congr 1
  omega

/-- Every place is the cell of one address. -/
theorem locate_surjective (side : Side) (i : Nat) : ∃ a, Memory.locate a = ⟨side, i⟩ := by
  cases side with
  | positive => exact ⟨i, locate_ofNat i⟩
  | negative => exact ⟨-(i : Int) - 1, locate_negSucc i⟩

/-- No two addresses share a cell. -/
theorem locate_injective {a b : Int} (h : Memory.locate a = Memory.locate b) : a = b := by
  simp only [Memory.locate] at h
  split at h <;> split at h <;> simp at h <;> omega

/-- Two addresses of one half have different indexes. -/
theorem locate_index_ne {a b : Int} (hab : a ≠ b) (hs : (Memory.locate a).side = (Memory.locate b).side) :
    (Memory.locate a).index ≠ (Memory.locate b).index := by
  intro hi
  apply hab
  apply locate_injective
  generalize Memory.locate a = p at *
  generalize Memory.locate b = q at *
  cases p; cases q; simp_all

@[simp] theorem half_setHalf_same (m : Memory) (side : Side) (h : Half) : (m.setHalf side h).half side = h := by
  cases side <;> rfl

theorem half_setHalf_other (m : Memory) {side other : Side} (h : Half) (hne : other ≠ side) :
    (m.setHalf side h).half other = m.half other := by
  cases side <;> cases other <;> first | rfl | exact absurd rfl hne

/-! ### Lists of cells -/

theorem readCells_of_no_key {cells : List Host.Cell} {i : Nat} (h : ∀ c ∈ cells, c.1 ≠ i) :
    readCells cells i = Memory.unlisted := by
  induction cells with
  | nil => rfl
  | cons c rest ih =>
    obtain ⟨j, b⟩ := c
    have hj : j ≠ i := h (j, b) (by simp)
    simp only [readCells, if_neg (Ne.symm hj)]
    exact ih fun c hc => h c (by simp [hc])

theorem readCells_writeCells_other (cells : List Host.Cell) {i j : Nat} (v : Byte) (h : j ≠ i) :
    readCells (writeCells cells i v) j = readCells cells j := by
  induction cells with
  | nil => simp only [writeCells]; split <;> simp [readCells, h]
  | cons c rest ih =>
    obtain ⟨k, b⟩ := c
    simp only [writeCells]
    by_cases hik : i < k
    · rw [if_pos hik]
      split
      · rfl
      · simp [readCells, h]
    · rw [if_neg hik]
      by_cases hk : i = k
      · subst hk
        rw [if_pos rfl]
        split <;> simp [readCells, h]
      · rw [if_neg hk]
        simp [readCells, ih]

theorem readCells_writeCells_same {cells : List Host.Cell} (hs : cells.Pairwise (fun a b => a.1 < b.1)) (i : Nat)
    (v : Byte) : readCells (writeCells cells i v) i = v := by
  induction cells with
  | nil => simp only [writeCells]; split <;> simp_all [readCells]
  | cons c rest ih =>
    obtain ⟨k, b⟩ := c
    obtain ⟨hk, hrest⟩ := List.pairwise_cons.mp hs
    simp only [writeCells]
    by_cases hik : i < k
    · rw [if_pos hik]
      split
      · rename_i hv
        rw [hv]
        apply readCells_of_no_key
        intro c hc
        rcases List.mem_cons.mp hc with rfl | hc
        · simp only; omega
        · have := hk c hc; simp only at this; omega
      · simp [readCells]
    · rw [if_neg hik]
      by_cases hki : i = k
      · subst hki
        rw [if_pos rfl]
        split
        · rename_i hv
          rw [hv]
          apply readCells_of_no_key
          intro c hc
          have := hk c hc; simp only at this; omega
        · simp [readCells]
      · rw [if_neg hki]
        simp [readCells, hki, ih hrest]

theorem mem_writeCells {cells : List Host.Cell} {i : Nat} {v : Byte} {c : Host.Cell}
    (h : c ∈ writeCells cells i v) : c ∈ cells ∨ (c = (i, v) ∧ v ≠ Memory.unlisted) := by
  induction cells with
  | nil =>
    simp only [writeCells] at h
    split at h
    · exact absurd h (by simp)
    · exact .inr ⟨by simpa using h, ‹_›⟩
  | cons d rest ih =>
    obtain ⟨k, b⟩ := d
    simp only [writeCells] at h
    split at h
    · split at h
      · exact .inl h
      · rcases List.mem_cons.mp h with rfl | h
        · exact .inr ⟨rfl, ‹_›⟩
        · exact .inl h
    · split at h
      · split at h
        · exact .inl (by simp [h])
        · rcases List.mem_cons.mp h with rfl | h
          · exact .inr ⟨rfl, ‹_›⟩
          · exact .inl (by simp [h])
      · rcases List.mem_cons.mp h with rfl | h
        · exact .inl (by simp)
        · rcases ih h with h | h
          · exact .inl (by simp [h])
          · exact .inr h

theorem writeCells_sorted {cells : List Host.Cell} (hs : cells.Pairwise (fun a b => a.1 < b.1)) (i : Nat) (v : Byte) :
    (writeCells cells i v).Pairwise (fun a b => a.1 < b.1) := by
  induction cells with
  | nil => simp only [writeCells]; split <;> simp
  | cons d rest ih =>
    obtain ⟨k, b⟩ := d
    obtain ⟨hk, hrest⟩ := List.pairwise_cons.mp hs
    simp only [writeCells]
    by_cases hik : i < k
    · rw [if_pos hik]
      split
      · exact hs
      · refine List.pairwise_cons.mpr ⟨fun c hc => ?_, hs⟩
        rcases List.mem_cons.mp hc with rfl | hc
        · exact hik
        · have := hk c hc; simp only at this ⊢; omega
    · rw [if_neg hik]
      by_cases hki : i = k
      · subst hki
        rw [if_pos rfl]
        split
        · exact hrest
        · exact List.pairwise_cons.mpr ⟨hk, hrest⟩
      · rw [if_neg hki]
        refine List.pairwise_cons.mpr ⟨fun c hc => ?_, ih hrest⟩
        rcases mem_writeCells hc with hc | ⟨rfl, -⟩
        · exact hk c hc
        · simp only; omega

/-- Writing 0 where nothing is listed changes nothing. -/
theorem writeCells_unlisted {cells : List Host.Cell} {i : Nat} (h : ∀ c ∈ cells, c.1 < i) :
    writeCells cells i Memory.unlisted = cells := by
  induction cells with
  | nil => simp [writeCells]
  | cons d rest ih =>
    obtain ⟨k, b⟩ := d
    have hk : k < i := h (k, b) (by simp)
    simp only [writeCells, if_neg (Nat.lt_asymm hk), if_neg (Nat.ne_of_gt hk)]
    rw [ih fun c hc => h c (by simp [hc])]

/-! ### One half -/

theorem Half.write_len (h : Half) (i : Nat) (v : Byte) : (h.write i v).len = h.len := rfl

theorem Half.read_write_other (h : Half) {i j : Nat} (v : Byte) (hne : j ≠ i) : (h.write i v).read j = h.read j :=
  readCells_writeCells_other h.cells v hne

theorem Half.read_write_same {h : Half} (hw : h.wf) (i : Nat) (v : Byte) : (h.write i v).read i = v :=
  readCells_writeCells_same hw.1 i v

theorem Half.write_wf {h : Half} (hw : h.wf) {i : Nat} (hi : i < h.len) (v : Byte) : (h.write i v).wf := by
  refine ⟨writeCells_sorted hw.1 i v, fun c hc => ?_⟩
  rcases mem_writeCells hc with hc | ⟨rfl, hv⟩
  · exact hw.2 c hc
  · exact ⟨hv, hi⟩

/-- On a half in canonical form one more cell is one more in the length. -/
theorem Half.extend_eq {h : Half} (hw : h.wf) : h.extend = { h with len := h.len + 1 } := by
  simp only [Half.extend, writeCells_unlisted fun c hc => (hw.2 c hc).2]

theorem Half.extend_wf {h : Half} (hw : h.wf) : h.extend.wf := by
  rw [Half.extend_eq hw]
  exact ⟨hw.1, fun c hc => ⟨(hw.2 c hc).1, Nat.lt_succ_of_lt (hw.2 c hc).2⟩⟩

theorem Half.extend_read_other (h : Half) {i : Nat} (hi : i ≠ h.len) : h.extend.read i = h.read i :=
  readCells_writeCells_other h.cells _ hi

/-- What `n` rounds of growth give when they succeed: the length, and the form. -/
theorem Half.grow_ok {cap : TapeCapacity} {n : Nat} {h h' : Half} (hg : Half.grow cap n h = .ok h') :
    h'.len = h.len + n ∧ (h.wf → h' = { h with len := h.len + n }) := by
  induction n generalizing h with
  | zero =>
    simp only [Half.grow, Except.ok.injEq] at hg
    subst hg
    exact ⟨rfl, fun _ => rfl⟩
  | succ n ih =>
    simp only [Half.grow] at hg
    split at hg
    · cases hg
    · obtain ⟨hl, hf⟩ := ih hg
      refine ⟨by rw [hl]; simp only [Half.extend]; omega, fun hw => ?_⟩
      rw [hf (Half.extend_wf hw), Half.extend_eq hw]
      simp only [Half.mk.injEq, and_true]
      omega

/-- The only failure of growth is `TapeExhausted`. -/
theorem Half.grow_error {cap : TapeCapacity} {n : Nat} {h : Half} {c : Fault} (hg : Half.grow cap n h = .error c) :
    c = .tapeExhausted := by
  induction n generalizing h with
  | zero => cases hg
  | succ n ih =>
    simp only [Half.grow] at hg
    split at hg
    · cases hg; rfl
    · exact ih hg

/-! ### The tape -/

theorem Memory.memRead_eq (m : Memory) (a : Int) :
    m.memRead a = if m.Materialised a then some (m.value a) else none := by
  unfold Memory.memRead Memory.value; split <;> rfl

theorem Memory.memRead_of_materialised {m : Memory} {a : Int} (h : m.Materialised a) : m.memRead a = some (m.value a) := by
  rw [Memory.memRead_eq, if_pos h]

theorem Memory.value_of_not_materialised {m : Memory} {a : Int} (h : ¬ m.Materialised a) :
    m.value a = Memory.unlisted := by
  unfold Memory.value; rw [if_neg h]

theorem Memory.put_half_len (m : Memory) (a : Int) (v : Byte) (side : Side) :
    ((m.put a v).half side).len = (m.half side).len := by
  unfold Memory.put
  by_cases hs : side = (Memory.locate a).side
  · subst hs; rw [half_setHalf_same]; rfl
  · rw [half_setHalf_other _ _ hs]

theorem Memory.put_pos_len (m : Memory) (a : Int) (v : Byte) : (m.put a v).pos.len = m.pos.len :=
  Memory.put_half_len m a v .positive

theorem Memory.put_neg_len (m : Memory) (a : Int) (v : Byte) : (m.put a v).neg.len = m.neg.len :=
  Memory.put_half_len m a v .negative

/-- A write materialises and forgets nothing. -/
theorem Memory.put_materialised (m : Memory) (a b : Int) (v : Byte) :
    (m.put a v).Materialised b ↔ m.Materialised b := by
  unfold Memory.Materialised; rw [Memory.put_half_len]

theorem Memory.wf_half {m : Memory} (hw : m.wf) (side : Side) : (m.half side).wf := by
  cases side
  · exact hw.1
  · exact hw.2

theorem Memory.setHalf_wf {m : Memory} (hw : m.wf) {side : Side} {h : Half} (hh : h.wf) : (m.setHalf side h).wf := by
  cases side
  · exact ⟨hh, hw.2⟩
  · exact ⟨hw.1, hh⟩

/-- A write keeps the canonical form. -/
theorem Memory.put_wf {m : Memory} (hw : m.wf) {a : Int} (ha : m.Materialised a) (v : Byte) : (m.put a v).wf :=
  Memory.setHalf_wf hw (Half.write_wf (Memory.wf_half hw _) ha v)

/-- A read after a write to the same address gives the byte written (20_memory.md R53). -/
theorem Memory.value_put_same {m : Memory} (hw : m.wf) {a : Int} (ha : m.Materialised a) (v : Byte) :
    (m.put a v).value a = v := by
  unfold Memory.value
  rw [if_pos ((Memory.put_materialised m a a v).mpr ha)]
  unfold Memory.put
  rw [half_setHalf_same]
  exact Half.read_write_same (Memory.wf_half hw _) _ v

/-- A write leaves every other address alone (20_memory.md R56). -/
theorem Memory.value_put_other (m : Memory) {a b : Int} (v : Byte) (h : b ≠ a) : (m.put a v).value b = m.value b := by
  unfold Memory.value
  simp only [Memory.put_materialised]
  split
  · unfold Memory.put
    by_cases hs : (Memory.locate b).side = (Memory.locate a).side
    · rw [hs, half_setHalf_same]
      exact Half.read_write_other _ v (locate_index_ne h hs)
    · rw [half_setHalf_other _ _ hs]
  · rfl

theorem Memory.memRead_put_same {m : Memory} (hw : m.wf) {a : Int} (ha : m.Materialised a) (v : Byte) :
    (m.put a v).memRead a = some v := by
  rw [Memory.memRead_of_materialised ((Memory.put_materialised m a a v).mpr ha), Memory.value_put_same hw ha]

theorem Memory.memRead_put_other (m : Memory) {a b : Int} (v : Byte) (h : b ≠ a) :
    (m.put a v).memRead b = m.memRead b := by
  simp only [Memory.memRead_eq, Memory.put_materialised, Memory.value_put_other m v h]

theorem Memory.memWrite_of_materialised {m : Memory} {a : Int} (h : m.Materialised a) (v : Byte) :
    m.memWrite a v = some (m.put a v) := by
  unfold Memory.memWrite; rw [if_pos h]

/-- What `Resolve` gives when it succeeds (20_memory.md R52, R54): the address is materialised, the other half is
untouched, and on a canonical tape the half is as it was but for its length. -/
theorem Memory.resolve_ok {m m' : Memory} {cap : TapeCapacity} {a : Int} (h : m.resolve cap a = .ok m') :
    m'.Materialised a ∧
      (∀ side, side ≠ (Memory.locate a).side → m'.half side = m.half side) ∧
      (m'.half (Memory.locate a).side).len =
        max (m.half (Memory.locate a).side).len ((Memory.locate a).index + 1) ∧
      (m.wf → m' = m.setHalf (Memory.locate a).side
        { m.half (Memory.locate a).side with
          len := max (m.half (Memory.locate a).side).len ((Memory.locate a).index + 1) }) := by
  unfold Memory.resolve at h
  split at h
  · rename_i h' hr
    cases h
    obtain ⟨hl, hf⟩ := Half.grow_ok hr
    have hlen : h'.len = max (m.half (Memory.locate a).side).len ((Memory.locate a).index + 1) := by omega
    refine ⟨?_, fun side hs => half_setHalf_other m h' hs, ?_, fun hw => ?_⟩
    · unfold Memory.Materialised
      rw [half_setHalf_same, hlen]
      omega
    · rw [half_setHalf_same, hlen]
    · rw [hf (Memory.wf_half hw _), ← hl, hlen]
  · cases h

/-- The only failure of `Resolve` is `TapeExhausted` (20_memory.md R55). -/
theorem Memory.resolve_error {m : Memory} {cap : TapeCapacity} {a : Int} {c : Fault}
    (h : m.resolve cap a = .error c) : c = .tapeExhausted := by
  unfold Memory.resolve at h
  split at h
  · cases h
  · rename_i c' hr
    cases h
    exact Half.grow_error hr

/-- `Resolve` of a materialised address changes nothing (20_memory.md R52). -/
theorem Memory.resolve_materialised {m : Memory} {cap : TapeCapacity} {a : Int} (h : m.Materialised a) :
    m.resolve cap a = .ok m := by
  have h0 : (Memory.locate a).index + 1 - (m.half (Memory.locate a).side).len = 0 := by
    have : (Memory.locate a).index < (m.half (Memory.locate a).side).len := h
    omega
  unfold Memory.resolve Half.resolve
  rw [h0]
  simp only [Half.grow]
  cases (Memory.locate a).side <;> rfl

/-- `Resolve` of the address just past the end of a half: one new cell, or `TapeExhausted` on a full half. -/
theorem Memory.resolve_next {m : Memory} {cap : TapeCapacity} {a : Int}
    (h : (Memory.locate a).index = (m.half (Memory.locate a).side).len) :
    m.resolve cap a =
      if TapeCapacity.isFull cap (m.half (Memory.locate a).side).len then .error .tapeExhausted
      else .ok (m.setHalf (Memory.locate a).side (m.half (Memory.locate a).side).extend) := by
  have h1 : (Memory.locate a).index + 1 - (m.half (Memory.locate a).side).len = 1 := by omega
  unfold Memory.resolve Half.resolve
  rw [h1]
  simp only [Half.grow]
  cases TapeCapacity.isFull cap (m.half (Memory.locate a).side).len <;> rfl

/-- With an unbounded capacity `Resolve` always succeeds (20_memory.md R55). -/
theorem Half.grow_unbounded (n : Nat) (h : Half) : ∃ h', Half.grow .unbounded n h = .ok h' := by
  induction n generalizing h with
  | zero => exact ⟨h, rfl⟩
  | succ n ih => exact ih h.extend

theorem Memory.resolve_unbounded (m : Memory) (a : Int) : ∃ m', m.resolve .unbounded a = .ok m' := by
  obtain ⟨h', hr⟩ := Half.grow_unbounded
    ((Memory.locate a).index + 1 - (m.half (Memory.locate a).side).len) (m.half (Memory.locate a).side)
  exact ⟨m.setHalf _ h', by unfold Memory.resolve Half.resolve; rw [hr]⟩

/-- `Resolve` keeps the canonical form. -/
theorem Memory.resolve_wf {m m' : Memory} {cap : TapeCapacity} {a : Int} (hw : m.wf)
    (h : m.resolve cap a = .ok m') : m'.wf := by
  obtain ⟨-, -, -, hf⟩ := Memory.resolve_ok h
  rw [hf hw]
  have hh := Memory.wf_half hw (Memory.locate a).side
  exact Memory.setHalf_wf hw ⟨hh.1, fun c hc => ⟨(hh.2 c hc).1, by have := (hh.2 c hc).2; simp only; omega⟩⟩

/-- `Resolve` forgets no cell. -/
theorem Memory.resolve_mono {m m' : Memory} {cap : TapeCapacity} {a b : Int} (h : m.resolve cap a = .ok m')
    (hb : m.Materialised b) : m'.Materialised b := by
  obtain ⟨-, ho, hl, -⟩ := Memory.resolve_ok h
  have hb' : (Memory.locate b).index < (m.half (Memory.locate b).side).len := hb
  show (Memory.locate b).index < (m'.half (Memory.locate b).side).len
  by_cases hs : (Memory.locate b).side = (Memory.locate a).side
  · rw [hs] at hb' ⊢; omega
  · rw [ho _ hs]; exact hb'

/-- On a half in canonical form, an index at or beyond the length reads 0. -/
theorem Half.read_beyond {h : Half} (hw : h.wf) {i : Nat} (hi : h.len ≤ i) : h.read i = Memory.unlisted :=
  readCells_of_no_key fun c hc => by have := (hw.2 c hc).2; omega

/-- On a canonical tape the byte at an address is what its half reads, materialised or not. -/
theorem Memory.value_eq_read {m : Memory} (hw : m.wf) (a : Int) :
    m.value a = (m.half (Memory.locate a).side).read (Memory.locate a).index := by
  unfold Memory.value
  split
  · rfl
  · rename_i h
    exact (Half.read_beyond (Memory.wf_half hw _) (Nat.le_of_not_lt h)).symm

theorem Half.grow_read {cap : TapeCapacity} {n : Nat} {h h' : Half} (hg : Half.grow cap n h = .ok h') {i : Nat}
    (hi : i < h.len) : h'.read i = h.read i := by
  induction n generalizing h with
  | zero => simp only [Half.grow, Except.ok.injEq] at hg; rw [hg]
  | succ n ih =>
    simp only [Half.grow] at hg
    split at hg
    · cases hg
    · rw [ih hg (by simp only [Half.extend]; omega), Half.extend_read_other h (Nat.ne_of_lt hi)]

/-- `Resolve` never changes what a cell holds (20_memory.md R56). -/
theorem Memory.value_resolve {m m' : Memory} {cap : TapeCapacity} {a : Int} (hw : m.wf)
    (h : m.resolve cap a = .ok m') (b : Int) : m'.value b = m.value b := by
  have hw' := Memory.resolve_wf hw h
  obtain ⟨-, -, -, hf⟩ := Memory.resolve_ok h
  rw [Memory.value_eq_read hw', Memory.value_eq_read hw, hf hw]
  by_cases hs : (Memory.locate b).side = (Memory.locate a).side
  · rw [hs, half_setHalf_same]; rfl
  · rw [half_setHalf_other _ _ hs]

/-- `Resolve` keeps every cell that was in storage, on any tape. -/
theorem Memory.memRead_resolve {m m' : Memory} {cap : TapeCapacity} {a b : Int}
    (h : m.resolve cap a = .ok m') (hb : m.Materialised b) : m'.memRead b = m.memRead b := by
  have hb' := Memory.resolve_mono h hb
  unfold Memory.memRead
  rw [if_pos hb', if_pos hb]
  unfold Memory.resolve at h
  split at h
  · rename_i h' hr
    cases h
    by_cases hs : (Memory.locate b).side = (Memory.locate a).side
    · rw [hs, half_setHalf_same]
      refine congrArg some (Half.grow_read hr ?_)
      have hlt : (Memory.locate b).index < (m.half (Memory.locate b).side).len := hb
      rw [hs] at hlt
      exact hlt
    · rw [half_setHalf_other _ _ hs]
  · cases h

/-- A canonical tape in which the current cell is in storage ends at the current cell's neighbour or has it. -/
theorem Memory.next_right {m : Memory} {a : Int} (h : m.Materialised a) (hn : ¬ m.Materialised (a + 1))
    (ho : 1 ≤ m.pos.len) : Memory.locate (a + 1) = ⟨.positive, m.pos.len⟩ := by
  by_cases ha : 0 ≤ a
  · have hl : Memory.locate a = ⟨.positive, a.toNat⟩ := by simp [Memory.locate, ha]
    have hl' : Memory.locate (a + 1) = ⟨.positive, (a + 1).toNat⟩ := by
      simp [Memory.locate, show (0 : Int) ≤ a + 1 by omega]
    simp only [Memory.Materialised, hl, hl', Memory.half] at h hn
    rw [hl']; congr 1; omega
  · exfalso
    by_cases ha1 : a = -1
    · apply hn
      subst ha1
      exact ho
    · have hl : Memory.locate a = ⟨.negative, (-a - 1).toNat⟩ := by simp [Memory.locate, ha]
      have hl' : Memory.locate (a + 1) = ⟨.negative, (-(a + 1) - 1).toNat⟩ := by
        simp [Memory.locate, show ¬ (0 : Int) ≤ a + 1 by omega]
      simp only [Memory.Materialised, hl, hl', Memory.half] at h hn
      omega

theorem Memory.next_left {m : Memory} {a : Int} (h : m.Materialised a) (hn : ¬ m.Materialised (a - 1)) :
    Memory.locate (a - 1) = ⟨.negative, m.neg.len⟩ := by
  by_cases ha : 0 ≤ a - 1
  · exfalso
    have hl : Memory.locate a = ⟨.positive, a.toNat⟩ := by simp [Memory.locate, show (0 : Int) ≤ a by omega]
    have hl' : Memory.locate (a - 1) = ⟨.positive, (a - 1).toNat⟩ := by simp only [Memory.locate, if_pos ha]
    simp only [Memory.Materialised, hl, hl', Memory.half] at h hn
    omega
  · have hl' : Memory.locate (a - 1) = ⟨.negative, (-(a - 1) - 1).toNat⟩ := by simp only [Memory.locate, if_neg ha]
    rw [hl']
    congr 1
    by_cases ha0 : 0 ≤ a
    · simp only [Memory.Materialised, hl', Memory.half] at hn
      have : a = 0 := by omega
      subst this
      simp at hn ⊢
      omega
    · have hl : Memory.locate a = ⟨.negative, (-a - 1).toNat⟩ := by simp only [Memory.locate, if_neg ha0]
      simp only [Memory.Materialised, hl, hl', Memory.half] at h hn
      omega

/-- The reset tape is what `Resolve(0)` makes of two empty halves (70_reset_and_hazards.md R230, step 4), whatever
the capacity, as long as it is at least 1. -/
theorem reset_tape_eq_resolve {cap : TapeCapacity} (h : cap ≠ .cells 0) :
    Memory.resolve { pos := { len := 0, cells := [] }, neg := { len := 0, cells := [] } } cap 0
      = .ok State.reset.tape := by
  cases cap with
  | unbounded => rfl
  | cells n => cases n with
    | zero => exact absurd rfl h
    | succ n => rfl

theorem reset_tape_wf : State.reset.tape.wf := by decide

end Sys2Proof.Machine
end

