-- ==== Sys2Proof/Laws/Ops.lean ====
section
/-! SUPPORT. One spec lemma per shared operation: everything it can answer. -/

namespace Sys2Proof.Machine

theorem selectMode_skip {s : State} (h : 0 < s.skip) (f g : State → StepResult) : selectMode s f g = f s := by
  unfold selectMode; rw [if_pos h]

theorem selectMode_normal {s : State} (h : s.skip = 0) (f g : State → StepResult) : selectMode s f g = g s := by
  unfold selectMode; rw [if_neg (by omega)]

/-! ### Cell arithmetic (42_cell_arithmetic.md R132) -/

theorem cellInc_eq (v : Byte) : cellInc v = v + 1 := by revert v; decide

theorem cellDec_eq (v : Byte) : cellDec v = v - 1 := by revert v; decide

theorem cellIsZero_of_eq {v : Byte} (h : v = 0) : cellIsZero v = true := by subst h; rfl

theorem cellIsZero_of_ne {v : Byte} (h : v ≠ 0) : cellIsZero v = false := beq_false_of_ne h

/-! ### The current cell -/

theorem cur_of_materialised {s : State} (h : s.tape.Materialised s.addr) : s.cur = some (s.tape.value s.addr) :=
  Memory.memRead_of_materialised h

theorem cur_eq_none {s : State} : s.cur = none ↔ ¬ s.tape.Materialised s.addr := by
  unfold State.cur; rw [Memory.memRead_eq]; split <;> simp_all

theorem cur_eq_some {s : State} {v : Byte} :
    s.cur = some v ↔ s.tape.Materialised s.addr ∧ s.tape.value s.addr = v := by
  unfold State.cur; rw [Memory.memRead_eq]
  by_cases hm : s.tape.Materialised s.addr
  · simp only [hm, if_true, Option.some.injEq, true_and]
  · simp only [hm, if_false, false_and, reduceCtorEq]

/-! ### The loop-start stack (10_state.md R27) -/

theorem pushStack_ok {cap : Nat} {ls ls' : List Nat} {v : Nat} (h : pushStack cap ls v = .ok ls') :
    ls.length ≠ cap ∧ ls' = ls ++ [v] := by
  unfold pushStack at h; split at h
  · cases h
  · cases h; exact ⟨‹_›, rfl⟩

theorem pushStack_error {cap : Nat} {ls : List Nat} {v : Nat} {c : Fault} (h : pushStack cap ls v = .error c) :
    ls.length = cap ∧ c = .loopStackOverflow := by
  unfold pushStack at h; split at h
  · cases h; exact ⟨‹_›, rfl⟩
  · cases h

theorem topStack_ok {ls : List Nat} {v : Nat} (h : topStack ls = .ok v) : ls = ls.dropLast ++ [v] := by
  unfold topStack at h; split at h
  · rename_i e he
    cases h
    obtain ⟨ys, rfl⟩ := List.getLast?_eq_some_iff.mp he
    simp
  · cases h

theorem topStack_error {ls : List Nat} {c : Fault} (h : topStack ls = .error c) :
    ls = [] ∧ c = .loopStackUnderflow := by
  unfold topStack at h; split at h
  · cases h
  · rename_i he
    cases h
    exact ⟨by simpa using he, rfl⟩

@[simp] theorem topStack_append (ls : List Nat) (v : Nat) : topStack (ls ++ [v]) = .ok v := by
  simp [topStack]

@[simp] theorem popStack_append (ls : List Nat) (v : Nat) : popStack (ls ++ [v]) = .ok ls := by
  unfold popStack
  split
  · rename_i h; simp at h
  · rename_i h; rw [← h]; simp

/-! ### The input source (43_byte_io.md R142) -/

/-- An answer is always counted, and either it was the first one lined up or none was lined up. -/
theorem inputNext_some {q q' : InputSource} {item : InputItem} (h : inputNext q = some (item, q')) :
    q'.asked = q.asked + 1 ∧ q'.afterQueue = q.afterQueue ∧
      (q.queue = item :: q'.queue ∨
        (q.queue = [] ∧ q'.queue = [] ∧
          ((q.afterQueue = .free ∧ item = Config.inputAnswer q.asked) ∨
            (q.afterQueue = .endOfStream ∧ item = .endOfStream)))) := by
  unfold inputNext at h
  split at h
  · rename_i i rest hq
    cases h
    exact ⟨rfl, rfl, .inl hq⟩
  · rename_i hq
    split at h <;> rename_i ha <;> cases h
    · exact ⟨rfl, rfl, .inr ⟨hq, hq, .inl ⟨ha, rfl⟩⟩⟩
    · exact ⟨rfl, rfl, .inr ⟨hq, hq, .inr ⟨ha, rfl⟩⟩⟩

theorem inputNext_none {q : InputSource} : inputNext q = none ↔ q.queue = [] ∧ q.afterQueue = .silent := by
  unfold inputNext
  split
  · simp_all
  · rename_i hq
    split <;> simp_all

/-! ### The actions of normal mode -/

/-- What one instruction does in normal mode when it answers a next state: one case per way it can end. -/
inductive NormalEffect : Instr → State → State → Prop where
  | moved {i s m a} (hi : (i = .right ∧ a = s.addr + 1) ∨ (i = .left ∧ a = s.addr - 1))
      (hr : s.tape.resolve s.params.tapeHalfCapacity a = .ok m) :
      NormalEffect i s ((s.withTape m).withAddr a).advance
  | exhausted {i s a} (hi : (i = .right ∧ a = s.addr + 1) ∨ (i = .left ∧ a = s.addr - 1))
      (hr : s.tape.resolve s.params.tapeHalfCapacity a = .error .tapeExhausted) :
      NormalEffect i s (s.withFault .tapeExhausted)
  | counted {i s f} (hi : (i = .inc ∧ f = cellInc) ∨ (i = .dec ∧ f = cellDec))
      (hm : s.tape.Materialised s.addr) :
      NormalEffect i s (s.setCur (f (s.tape.value s.addr))).advance
  | emitted {s} (hm : s.tape.Materialised s.addr) :
      NormalEffect .out s (outputByte s (s.tape.value s.addr)).advance
  | received {s b q} (hn : inputNext s.input = some (.byte b, q)) (hm : s.tape.Materialised s.addr) :
      NormalEffect .inp s ((s.setCur b).withInput q).advance
  | ended {s q} (hn : inputNext s.input = some (.endOfStream, q)) :
      NormalEffect .inp s (s.withInput q).advance
  | skipped {s} (hm : s.tape.Materialised s.addr) (hz : s.tape.value s.addr = 0) :
      NormalEffect .openLoop s (s.withSkip 1).advance
  | entered {s} (hm : s.tape.Materialised s.addr) (hz : s.tape.value s.addr ≠ 0)
      (hc : s.lsp ≠ s.params.loopStackCapacity) :
      NormalEffect .openLoop s (s.withStack (s.ls ++ [s.pc + 1])).advance
  | overflowed {s} (hm : s.tape.Materialised s.addr) (hz : s.tape.value s.addr ≠ 0)
      (hc : s.lsp = s.params.loopStackCapacity) :
      NormalEffect .openLoop s (s.withFault .loopStackOverflow)
  | underflowed {s} (he : s.ls = []) : NormalEffect .closeLoop s (s.withFault .loopStackUnderflow)
  | repeated {s ls e} (he : s.ls = ls ++ [e]) (hm : s.tape.Materialised s.addr) (hz : s.tape.value s.addr ≠ 0) :
      NormalEffect .closeLoop s (s.jump e)
  | left {s ls e} (he : s.ls = ls ++ [e]) (hm : s.tape.Materialised s.addr) (hz : s.tape.value s.addr = 0) :
      NormalEffect .closeLoop s (s.withStack ls).advance
  | passed {s b} : NormalEffect (.nop b) s s.advance

/-- `movePointer` answers a next state for every address and state. -/
theorem movePointer_cases (a : Int) (s : State) :
    (∃ m, s.tape.resolve s.params.tapeHalfCapacity a = .ok m ∧
        movePointer a s = .next ((s.withTape m).withAddr a).advance) ∨
      (s.tape.resolve s.params.tapeHalfCapacity a = .error .tapeExhausted ∧
        movePointer a s = .next (s.withFault .tapeExhausted)) := by
  unfold movePointer
  cases hr : s.tape.resolve s.params.tapeHalfCapacity a with
  | ok m => exact .inl ⟨m, rfl, rfl⟩
  | error c =>
    rw [Memory.resolve_error hr]
    exact .inr ⟨rfl, rfl⟩

theorem updateCell_cases (f : Byte → Byte) (s : State) :
    (s.tape.Materialised s.addr ∧ updateCell f s = .next (s.setCur (f (s.tape.value s.addr))).advance) ∨
      (¬ s.tape.Materialised s.addr ∧ updateCell f s = .refused .unmaterialisedCell) := by
  unfold updateCell
  by_cases hm : s.tape.Materialised s.addr
  · rw [cur_of_materialised hm]; exact .inl ⟨hm, rfl⟩
  · rw [cur_eq_none.mpr hm]; exact .inr ⟨hm, rfl⟩

theorem outNormal_cases (s : State) :
    (s.tape.Materialised s.addr ∧ outNormal s = .next (outputByte s (s.tape.value s.addr)).advance) ∨
      (¬ s.tape.Materialised s.addr ∧ outNormal s = .refused .unmaterialisedCell) := by
  unfold outNormal
  by_cases hm : s.tape.Materialised s.addr
  · rw [cur_of_materialised hm]; exact .inl ⟨hm, rfl⟩
  · rw [cur_eq_none.mpr hm]; exact .inr ⟨hm, rfl⟩

theorem inNormal_cases (s : State) :
    (∃ b q, inputNext s.input = some (.byte b, q) ∧ s.tape.Materialised s.addr ∧
        inNormal s = .next ((s.setCur b).withInput q).advance) ∨
      (∃ q, inputNext s.input = some (.endOfStream, q) ∧ inNormal s = .next (s.withInput q).advance) ∨
      (inputNext s.input = none ∧ inNormal s = .refused .waitingForInput) ∨
      (∃ b q, inputNext s.input = some (.byte b, q) ∧ ¬ s.tape.Materialised s.addr ∧
        inNormal s = .refused .unmaterialisedCell) := by
  unfold inNormal
  cases hn : inputNext s.input with
  | none => exact .inr (.inr (.inl ⟨rfl, rfl⟩))
  | some p =>
    obtain ⟨item, q⟩ := p
    cases item with
    | endOfStream => exact .inr (.inl ⟨q, rfl, by simp⟩)
    | byte b =>
      by_cases hm : s.tape.Materialised s.addr
      · exact .inl ⟨b, q, rfl, hm, by simp only [hm, true_or, if_true, State.receive_byte]⟩
      · exact .inr (.inr (.inr ⟨b, q, rfl, hm, by simp [hm]⟩))

theorem openNormal_cases (s : State) :
    (s.tape.Materialised s.addr ∧ s.tape.value s.addr = 0 ∧ openNormal s = .next (s.withSkip 1).advance) ∨
      (s.tape.Materialised s.addr ∧ s.tape.value s.addr ≠ 0 ∧ s.lsp ≠ s.params.loopStackCapacity ∧
        openNormal s = .next (s.withStack (s.ls ++ [s.pc + 1])).advance) ∨
      (s.tape.Materialised s.addr ∧ s.tape.value s.addr ≠ 0 ∧ s.lsp = s.params.loopStackCapacity ∧
        openNormal s = .next (s.withFault .loopStackOverflow)) ∨
      (¬ s.tape.Materialised s.addr ∧ openNormal s = .refused .unmaterialisedCell) := by
  unfold openNormal
  by_cases hm : s.tape.Materialised s.addr
  · rw [cur_of_materialised hm]
    by_cases hz : s.tape.value s.addr = 0
    · exact .inl ⟨hm, hz, by simp only [cellIsZero_of_eq hz, if_true]⟩
    · by_cases hc : s.lsp = s.params.loopStackCapacity
      · exact .inr (.inr (.inl ⟨hm, hz, hc, by simp [cellIsZero_of_ne hz, pushStack, hc, raise]⟩))
      · exact .inr (.inl ⟨hm, hz, hc, by simp [cellIsZero_of_ne hz, pushStack, hc]⟩)
  · rw [cur_eq_none.mpr hm]; exact .inr (.inr (.inr ⟨hm, rfl⟩))

theorem closeNormal_cases (s : State) :
    (s.ls = [] ∧ closeNormal s = .next (s.withFault .loopStackUnderflow)) ∨
      (∃ ls e, s.ls = ls ++ [e] ∧ s.tape.Materialised s.addr ∧ s.tape.value s.addr ≠ 0 ∧
        closeNormal s = .next (s.jump e)) ∨
      (∃ ls e, s.ls = ls ++ [e] ∧ s.tape.Materialised s.addr ∧ s.tape.value s.addr = 0 ∧
        closeNormal s = .next (s.withStack ls).advance) ∨
      (s.ls ≠ [] ∧ ¬ s.tape.Materialised s.addr ∧ closeNormal s = .refused .unmaterialisedCell) := by
  unfold closeNormal
  rcases List.eq_nil_or_concat s.ls with he | ⟨ls, e, he⟩
  · rw [he]; exact .inl ⟨rfl, rfl⟩
  · rw [List.concat_eq_append] at he
    rw [he, topStack_append]
    by_cases hm : s.tape.Materialised s.addr
    · rw [cur_of_materialised hm]
      by_cases hz : s.tape.value s.addr = 0
      · exact .inr (.inr (.inl ⟨ls, e, rfl, hm, hz, by simp [cellIsZero_of_eq hz]⟩))
      · exact .inr (.inl ⟨ls, e, rfl, hm, hz, by simp [cellIsZero_of_ne hz]⟩)
    · rw [cur_eq_none.mpr hm]
      exact .inr (.inr (.inr ⟨by simp, hm, rfl⟩))

end Sys2Proof.Machine
end

