-- ==== Sys2Proof/Laws/PerInstr.lean ====
section
/-! SUPPORT. Statements made per instruction: one lemma per constructor of `Instr`. -/

namespace Sys2Proof.Laws.RowMatch

/-- The byte of a well-formed instruction matches its own row of spec/opcode_table.json, the whole byte where the
row's mask is 0xFF, and the row of no other instruction but `NOP` (30_encoding.md R93). -/
def Statement (i : Instr) : Prop :=
  i.wf = true → encodeByte i &&& rowMask i = rowMatch i ∧
    ∀ j ∈ opcodeTable.map Prod.snd, j ≠ i → encodeByte i &&& rowMask j ≠ rowMatch j

theorem right : Statement .right := fun _ => by decide
theorem left : Statement .left := fun _ => by decide
theorem inc : Statement .inc := fun _ => by decide
theorem dec : Statement .dec := fun _ => by decide
theorem out : Statement .out := fun _ => by decide
theorem inp : Statement .inp := fun _ => by decide
theorem openLoop : Statement .openLoop := fun _ => by decide
theorem closeLoop : Statement .closeLoop := fun _ => by decide
theorem nop (b : Byte) : Statement (.nop b) := fun h => by
  revert b; decide

end Sys2Proof.Laws.RowMatch
end

