-- ==== Sys2Proof/Laws/Step.lean ====
section
/-! SUPPORT. What an instruction and a step can do, said once (the inversion lemmas). -/

namespace Sys2Proof.Machine

/-- What `skip` becomes in a skip-mode step (45_skip_mode_nop.md R171 to R173). -/
def skipAfter (i : Instr) (n : Nat) : Nat :=
  match i with
  | .openLoop => n + 1
  | .closeLoop => n - 1
  | .right | .left | .inc | .dec | .out | .inp | .nop _ => n

/-- Everything an instruction does when it answers a next state. -/
theorem exec_next_cases {i : Instr} {s t : State} (h : exec i s = .next t) :
    (0 < s.skip ∧ t = (s.withSkip (skipAfter i s.skip)).advance) ∨ (s.skip = 0 ∧ NormalEffect i s t) := by
  rcases Nat.eq_zero_or_pos s.skip with hs | hs
  · refine .inr ⟨hs, ?_⟩
    cases i <;> simp only [exec, execRight, execLeft, execInc, execDec, execOut, execIn, execOpen, execClose,
      execNop, selectMode_normal hs] at h
    case right =>
      rcases movePointer_cases (s.addr + 1) s with ⟨m, hr, he⟩ | ⟨hr, he⟩ <;> rw [rightNormal, he] at h <;> cases h
      · exact .moved (.inl ⟨rfl, rfl⟩) hr
      · exact .exhausted (.inl ⟨rfl, rfl⟩) hr
    case left =>
      rcases movePointer_cases (s.addr - 1) s with ⟨m, hr, he⟩ | ⟨hr, he⟩ <;> rw [leftNormal, he] at h <;> cases h
      · exact .moved (.inr ⟨rfl, rfl⟩) hr
      · exact .exhausted (.inr ⟨rfl, rfl⟩) hr
    case inc =>
      rcases updateCell_cases cellInc s with ⟨hm, he⟩ | ⟨hm, he⟩ <;> rw [incNormal, he] at h <;> cases h
      exact .counted (.inl ⟨rfl, rfl⟩) hm
    case dec =>
      rcases updateCell_cases cellDec s with ⟨hm, he⟩ | ⟨hm, he⟩ <;> rw [decNormal, he] at h <;> cases h
      exact .counted (.inr ⟨rfl, rfl⟩) hm
    case out =>
      rcases outNormal_cases s with ⟨hm, he⟩ | ⟨hm, he⟩ <;> rw [he] at h <;> cases h
      exact .emitted hm
    case inp =>
      rcases inNormal_cases s with ⟨b, q, hn, hm, he⟩ | ⟨q, hn, he⟩ | ⟨hn, he⟩ | ⟨b, q, hn, hm, he⟩ <;>
        rw [he] at h <;> cases h
      · exact .received hn hm
      · exact .ended hn
    case openLoop =>
      rcases openNormal_cases s with ⟨hm, hz, he⟩ | ⟨hm, hz, hc, he⟩ | ⟨hm, hz, hc, he⟩ | ⟨hm, he⟩ <;>
        rw [he] at h <;> cases h
      · exact .skipped hm hz
      · exact .entered hm hz hc
      · exact .overflowed hm hz hc
    case closeLoop =>
      rcases closeNormal_cases s with ⟨hl, he⟩ | ⟨ls, e, hl, hm, hz, he⟩ | ⟨ls, e, hl, hm, hz, he⟩ | ⟨hl, hm, he⟩ <;>
        rw [he] at h <;> cases h
      · exact .underflowed hl
      · exact .repeated hl hm hz
      · exact .left hl hm hz
    case nop b =>
      cases h; exact .passed
  · refine .inl ⟨hs, ?_⟩
    cases i <;> simp only [exec, execRight, execLeft, execInc, execDec, execOut, execIn, execOpen, execClose,
      execNop, selectMode_skip hs, skipOther, skipOpen, skipClose] at h <;> cases h <;> rfl

/-- A step that answers a next state ran the instruction whose byte stands at `pc`. -/
theorem step_next {s t : State} (h : step s = .next t) :
    ∃ b, s.Fetching b ∧ exec (decodeByte b) s = .next t := by
  unfold step at h
  split at h
  · cases h
  · rename_i hf
    split at h
    · cases h
    · unfold fetchBytes progRead at h
      cases hp : s.params.prog[s.pc]? with
      | none => rw [hp] at h; cases h
      | some b =>
        rw [hp] at h
        exact ⟨b, ⟨hf, hp⟩, h⟩

theorem pc_lt_of_fetching {s : State} {b : Byte} (h : s.Fetching b) : s.pc < s.progLen :=
  (List.getElem?_eq_some_iff.mp h.2).1

theorem placeByte_getElem? (prog : List Byte) (i : Nat) (b : Byte) : (placeByte prog i b)[i]? = some b := by
  induction i generalizing prog with
  | zero => cases prog <;> rfl
  | succ i ih => cases prog <;> simp [placeByte, ih]

/-- A state prepared by `withFetchWord` runs exactly the placed instruction (log entry 18). -/
theorem step_withFetchWord {s : State} (h : s.fault = none) (nbits w : Nat) :
    step (s.withFetchWord nbits w) = exec (decodeByte (tableByte nbits w)) (s.withFetchWord nbits w) := by
  have hb : (s.withFetchWord nbits w).params.prog[s.pc]? = some (tableByte nbits w) := placeByte_getElem? _ _ _
  have hlt : s.pc < (s.withFetchWord nbits w).progLen := (List.getElem?_eq_some_iff.mp hb).1
  have hf : (s.withFetchWord nbits w).fault = none := h
  have hpc : (s.withFetchWord nbits w).pc = s.pc := rfl
  unfold step
  rw [hf]
  simp only
  rw [if_neg (by rw [hpc]; omega)]
  unfold fetchBytes progRead
  rw [hpc, hb]
  rfl

/-- What holds at a start and is kept by every step holds of every state a run reaches. -/
theorem Reaches.induction_inv {P : State → Prop} {s t : State} (h : Reaches s t) (h0 : P s)
    (hs : ∀ u v, P u → step u = .next v → P v) : P t := by
  induction h with
  | refl => exact h0
  | tail _ hstep ih => exact hs _ _ ih hstep

theorem Reaches.trans {s t u : State} (h : Reaches s t) (h' : Reaches t u) : Reaches s u := by
  induction h' with
  | refl => exact h
  | tail _ hstep ih => exact .tail ih hstep

/-- Bracket depth, one byte further. -/
theorem bracketDepth_succ {prog : List Byte} {k : Nat} {b : Byte} (h : prog[k]? = some b) :
    bracketDepth prog (k + 1) = bracketDepth prog k +
      (if b = symOpen then 1 else if b = symClose then -1 else 0) := by
  have hk := (List.getElem?_eq_some_iff.mp h)
  unfold bracketDepth
  rw [List.take_add_one, h]
  have hne : symOpen ≠ symClose := by decide
  simp only [Option.toList_some, List.count_append, List.count_singleton, beq_iff_eq]
  by_cases ho : b = symOpen
  · subst ho; simp [hne]; omega
  · by_cases hc : b = symClose
    · subst hc; simp [ho]; omega
    · simp [ho, hc]

end Sys2Proof.Machine
end

