-- ==== Sys2Proof/Tests/Slice0.lean ====
section
/-! SUPPORT. The model's own tests. Every expected value is taken from spec/95_test_vectors.md or the rule named, not
from the model. Then, for every obligation with hypotheses, a witness that meets them together, clause by clause. -/

namespace Sys2Proof.Tests

open Sys2Proof Sys2Proof.Machine

/-! ### Well-formedness: each of the eight bytes of 30_encoding.md R83 is refused as a `NOP` -/

theorem test_wf_refuses_nop_right : (Instr.nop 0x3E).wf = false := by decide
theorem test_wf_refuses_nop_left : (Instr.nop 0x3C).wf = false := by decide
theorem test_wf_refuses_nop_inc : (Instr.nop 0x2B).wf = false := by decide
theorem test_wf_refuses_nop_dec : (Instr.nop 0x2D).wf = false := by decide
theorem test_wf_refuses_nop_out : (Instr.nop 0x2E).wf = false := by decide
theorem test_wf_refuses_nop_in : (Instr.nop 0x2C).wf = false := by decide
theorem test_wf_refuses_nop_open : (Instr.nop 0x5B).wf = false := by decide
theorem test_wf_refuses_nop_close : (Instr.nop 0x5D).wf = false := by decide

/-! ### Decoding of words written out from 30_encoding.md R83, R85 -/

theorem test_decode_right : decode [0b00111110#8] = .ok (.right, []) := rfl
theorem test_decode_left : decode [0b00111100#8] = .ok (.left, []) := rfl
theorem test_decode_inc : decode [0b00101011#8] = .ok (.inc, []) := rfl
theorem test_decode_dec : decode [0b00101101#8] = .ok (.dec, []) := rfl
theorem test_decode_out : decode [0b00101110#8] = .ok (.out, []) := rfl
theorem test_decode_in : decode [0b00101100#8] = .ok (.inp, []) := rfl
theorem test_decode_open : decode [0b01011011#8] = .ok (.openLoop, []) := rfl
theorem test_decode_close : decode [0b01011101#8] = .ok (.closeLoop, []) := rfl
theorem test_decode_nop_zero : decode [0b00000000#8, 0b00101011#8] = .ok (.nop 0, [0b00101011#8]) := rfl
/-- `5` after `+` is a `NOP`, no repeat count (R88, vector V4). -/
theorem test_decode_nop_digit : decode [0b00110101#8] = .ok (.nop 0b00110101#8, []) := rfl
/-- `\` stands between `[` and `]` in the byte order and is neither (R85). -/
theorem test_decode_nop_between_brackets : decode [0b01011100#8] = .ok (.nop 0b01011100#8, []) := rfl
theorem test_decode_rejects_nothing_to_decode : decode [] = .error .noByte := rfl
theorem test_table_word_close : decodeTableWord 8 0x5D = some .closeLoop := by decide
theorem test_fetch_word_runs : step (State.reset.withFetchWord 8 0x78) = .next { State.reset.withFetchWord 8 0x78 with pc := 1 } := rfl

/-! ### One step each -/

/-- A machine just after reset with a program, loop-stack capacity 2, a tape of at most 3 cells a half, one byte `A`
of input and then end of stream. -/
def load (prog : List Byte) : State :=
  State.boot { prog := prog, loopStackCapacity := 2, tapeHalfCapacity := .cells 3, debug := 0 }
    { queue := [.byte 0x41], afterQueue := .endOfStream, asked := 0 }

/-- The same machine with the tape given by its cells that hold something else than 0. -/
def loadTape (prog : List Byte) (pos neg : Half) : State := { load prog with tape := ⟨pos, neg⟩ }

/-- One cell, holding `v`. -/
def oneCell (v : Byte) : Half := if v = 0 then ⟨1, []⟩ else ⟨1, [(0, v)]⟩

/-- One field of the next state. -/
def after {α : Type} (f : State → α) : StepResult → Option α
  | .next s => some (f s)
  | .fault _ => none
  | .refused _ => none

/-- V6: `>` from reset: `addr = 1, pos = [0, 0], pc = 1`. -/
theorem test_right : after (fun t => (t.addr, t.tape.pos.len, t.tape.memRead 1, t.pc)) (step (load [0x3E])) =
    some (1, 2, some 0, 1) := by decide
/-- V12: `>` with capacity 1: TAPE_EXHAUSTED, `pc = 0, addr = 0`. -/
theorem test_right_exhausted :
    after (fun t => (t.fault, t.pc, t.addr, t.tape))
      (step { load [0x3E] with params := { (load [0x3E]).params with tapeHalfCapacity := .cells 1 } }) =
    some (some .tapeExhausted, 0, 0, (load []).tape) := by decide
/-- V7: `<` from reset: `addr = -1, pos = [0], neg = [0], pc = 1`. -/
theorem test_left : after (fun t => (t.addr, t.tape.pos.len, t.tape.neg.len, t.pc)) (step (load [0x3C])) =
    some (-1, 1, 1, 1) := by decide
/-- V14, the second step: `<` at -1 with capacity 1: TAPE_EXHAUSTED, `pc = 1, addr = -1`. -/
theorem test_left_exhausted :
    after (fun t => (t.fault, t.pc, t.addr))
      (step { load [0x3C, 0x3C] with
        pc := 1, addr := -1, tape := ⟨⟨1, []⟩, ⟨1, []⟩⟩,
        params := { (load [0x3C, 0x3C]).params with tapeHalfCapacity := .cells 1 } }) =
    some (some .tapeExhausted, 1, -1) := by decide
/-- V16: `+`. -/
theorem test_inc : after (fun t => (t.cur, t.pc)) (step (load [0x2B])) = some (some 1, 1) := by decide
/-- V19, the second step: 255 + 1 wraps to 0, and the tape is the reset tape again. -/
theorem test_inc_wraps : after (fun t => t.tape) (step (loadTape [0x2B] (oneCell 255) ⟨0, []⟩)) = some (load []).tape := by
  decide
/-- V17: `-` wraps at 0. -/
theorem test_dec_wraps : after (fun t => t.cur) (step (load [0x2D])) = some (some 255) := by decide
/-- V22, the second step: the negative half is the same. -/
theorem test_dec_negative_half :
    after (fun t => (t.tape.memRead (-1), t.tape.memRead 0))
      (step { loadTape [0x2D] (oneCell 7) (oneCell 1) with addr := -1 }) = some (some 0, some 7) := by decide
/-- V23: a zero byte is emitted. -/
theorem test_out_zero : after (fun t => (t.out, t.tape)) (step (load [0x2E])) = some ([0], (load []).tape) := by decide
/-- V25, the last step: appended after what is there. -/
theorem test_out_appends :
    after (fun t => t.out) (step { loadTape [0x2E] (oneCell 1) ⟨0, []⟩ with out := [2] }) = some [2, 1] := by decide
/-- V26: `,` with input `A`. -/
theorem test_in_byte : after (fun t => (t.cur, t.input.asked, t.input.queue)) (step (load [0x2C])) =
    some (some 0x41, 1, []) := by decide
/-- V28, the third step: end of stream leaves 65. -/
theorem test_in_end_of_stream :
    after (fun t => (t.cur, t.input.asked, t.pc))
      (step { loadTape [0x2C] (oneCell 65) ⟨0, []⟩ with input := ⟨[], .endOfStream, 1⟩ }) =
    some (some 65, 2, 1) := by decide
/-- V34: `[` on a zero cell. -/
theorem test_open_zero : after (fun t => (t.skip, t.ls, t.pc)) (step (load [0x5B])) = some (1, [], 1) := by decide
/-- V35, the second step: `ls = [2], skip = 0`. -/
theorem test_open_taken :
    after (fun t => (t.skip, t.ls, t.pc)) (step { loadTape [0x2B, 0x5B] (oneCell 1) ⟨0, []⟩ with pc := 1 }) =
    some (0, [2], 2) := by decide
/-- V33, a step of its loop: a repeating `]` keeps its entry (44_loop_control.md R151, Reading B). -/
theorem test_close_repeats :
    after (fun t => (t.ls, t.pc)) (step { loadTape [0x2C, 0x5B, 0x5D] (oneCell 98) ⟨0, []⟩ with pc := 2, ls := [2] }) =
    some ([2], 2) := by decide
/-- V38, its fourth step: a `]` on a zero cell drops the entry. -/
theorem test_close_leaves :
    after (fun t => (t.ls, t.pc)) (step { load [0x2B, 0x5B, 0x2D, 0x5D] with pc := 3, ls := [2] }) = some ([], 4) := by
  decide
/-- V2: `x` is a `NOP`. -/
theorem test_nop : step (load [0x78]) = .next { load [0x78] with pc := 1 } := rfl
/-- V32, a step of its scan: `,` in skip mode consumes nothing (45_skip_mode_nop.md R173). -/
theorem test_skipped_in : step { load [0x2C] with skip := 1 } = .next { load [0x2C] with skip := 1, pc := 1 } := rfl
/-- V1: an empty program halts at once. -/
theorem test_empty_program_halts : step (load []) = .refused .halted := rfl

/-! ### Witnesses: states that meet the hypotheses of the obligations -/

/-- The parts of `State.Inv` that can be evaluated, on a bounded tape, are all of it. -/
theorem inv_of_bounded {s : State} {n : Nat} (hc : s.params.tapeHalfCapacity = .cells n)
    (h : s.tape.wf ∧ 1 ≤ s.tape.pos.len ∧ s.tape.Materialised s.addr ∧ s.tape.pos.len ≤ n ∧ s.tape.neg.len ≤ n ∧
      s.pc ≤ s.progLen ∧ s.lsp ≤ s.params.loopStackCapacity ∧
      (∀ e ∈ s.ls, 1 ≤ e ∧ e ≤ s.pc ∧ s.params.prog[e - 1]? = some symOpen) ∧ s.ls.Pairwise (· < ·) ∧
      s.skip ≤ s.pc) : s.Inv := by
  obtain ⟨h1, h2, h3, h4, h5, h6, h7, h8, h9, h10⟩ := h
  exact ⟨h1, h2, h3, by rw [hc]; exact h4, by rw [hc]; exact h5, h6, h7, h8, h9, h10⟩

theorem paired_load (prog : List Byte) : (load prog).Paired :=
  ⟨by show bracketDepth prog 0 = 0; simp [bracketDepth], fun i e h => by simp [load, State.boot, State.reset] at h,
    fun h => absurd h (Nat.lt_irrefl 0)⟩

theorem witness_DecodeOfEncode : Instr.closeLoop.wf = true ∧ (Instr.nop 0x00).wf = true ∧ (Instr.nop 0xFF).wf = true := by
  decide

theorem witness_ProgramTextRoundTrip : ∀ i ∈ [Instr.inc, .nop 0x20, .openLoop], i.wf = true := by decide

theorem witness_OtherBytesAreNopInBothModes :
    (0x5C : Byte) ∉ ([0x3E, 0x3C, 0x2B, 0x2D, 0x2E, 0x2C, 0x5B, 0x5D] : List Byte) ∧
    (0x00 : Byte) ∉ ([0x3E, 0x3C, 0x2B, 0x2D, 0x2E, 0x2C, 0x5B, 0x5D] : List Byte) ∧
    (0xFF : Byte) ∉ ([0x3E, 0x3C, 0x2B, 0x2D, 0x2E, 0x2C, 0x5B, 0x5D] : List Byte) ∧
    (load [0x5C]).Fetching 0x5C ∧ ({ load [0x5C] with skip := 1 } : State).Fetching 0x5C := by decide

theorem witness_StepRunsTheDecodedInstruction :
    (load [0x2B]).fault = none ∧ (load [0x2B]).pc ≠ (load [0x2B]).progLen ∧
    decode (fetchBytes (load [0x2B])) = .ok (.inc, []) ∧ (load [0x2B]).Fetching 0x2B := by
  exact ⟨rfl, by decide, rfl, rfl, rfl⟩

theorem witness_HaltsExactlyAtProgramEnd :
    (load []).fault = none ∧ (load []).pc = (load []).progLen ∧
    (load [0x2B]).fault = none ∧ (load [0x2B]).pc ≠ (load [0x2B]).progLen := by decide

theorem witness_FaultIsSticky :
    ((load []).withFault .tapeExhausted).fault = some .tapeExhausted ∧
    Reaches ((load []).withFault .tapeExhausted) ((load []).withFault .tapeExhausted) := ⟨rfl, .refl _⟩

theorem witness_RunStatusAndVerdict :
    ((load []).withFault .loopStackOverflow).fault = some .loopStackOverflow ∧
    ((load []).fault = none ∧ (load []).pc = (load []).progLen) ∧
    (load [0]).fault = none ∧ (load [0]).pc ≠ (load [0]).progLen := by decide

theorem witness_ProgramIsImmutable : Reaches (load [0x78]) { load [0x78] with pc := 1 } := .tail (.refl _) rfl

theorem witness_SkipModeEffect :
    (0 < ({ load [0x5B] with skip := 1 } : State).skip ∧ ({ load [0x5B] with skip := 1 } : State).Fetching 0x5B) ∧
    (0 < ({ load [0x5D] with skip := 1 } : State).skip ∧ ({ load [0x5D] with skip := 1 } : State).Fetching 0x5D) ∧
    (0 < ({ load [0x2E] with skip := 1 } : State).skip ∧ ({ load [0x2E] with skip := 1 } : State).Fetching 0x2E) ∧
    (0x2E : Byte) ≠ 0x5B ∧ (0x2E : Byte) ≠ 0x5D ∧ Instr.out ≠ .openLoop ∧ Instr.out ≠ .closeLoop := by decide

theorem witness_SkipModeEnteredOnlyByOpen :
    (step (load [0x5B]) = .next { load [0x5B] with skip := 1, pc := 1 } ∧ (load [0x5B]).skip = 0) ∧
    step (load [0x78]) = .next { load [0x78] with pc := 1 } := ⟨⟨rfl, rfl⟩, rfl⟩

theorem witness_ScanEndsAtBalancingBracket :
    (load [0x5B, 0x5D]).skip = 0 ∧ (load [0x5B, 0x5D]).Fetching 0x5B ∧ (load [0x5B, 0x5D]).cur = some 0 ∧
    ScansTo (load [0x5B, 0x5D]) { load [0x5B, 0x5D] with skip := 1, pc := 1 } ∧
    ScansTo (load [0x5B, 0x5D]) { load [0x5B, 0x5D] with pc := 2 } :=
  ⟨rfl, ⟨rfl, rfl⟩, rfl, .first rfl, .more (.first rfl) (Nat.lt_succ_self 0) rfl⟩

theorem witness_ScanReachesItsEnd :
    ((load [0x5B, 0x5D]).skip = 0 ∧ (load [0x5B, 0x5D]).Fetching 0x5B ∧ (load [0x5B, 0x5D]).cur = some 0 ∧
      Balances [0x5B, 0x5D] 0 1) ∧
    (load [0x5B]).skip = 0 ∧ (load [0x5B]).Fetching 0x5B ∧ (load [0x5B]).cur = some 0 ∧ ∀ q, ¬ Balances [0x5B] 0 q := by
  refine ⟨⟨rfl, ⟨rfl, rfl⟩, rfl, ⟨Nat.lt_succ_self 0, rfl, rfl, fun k h1 h2 => ?_⟩, rfl, rfl⟩,
    rfl, ⟨rfl, rfl⟩, rfl, fun q h => ?_⟩
  · have hk : k = 1 := by omega
    subst hk; decide
  · have hc := h.2.1
    cases q with
    | zero => exact absurd hc (by decide)
    | succ q => exact absurd hc (by simp)

theorem witness_AddressMappingIsABijection :
    (0 : Int) ≤ 0 ∧ (-1 : Int) < 0 ∧ (load []).tape.memWrite 0 5 = some ((load []).tape.put 0 5) ∧ (-1 : Int) ≠ 0 := by
  decide

/-- `>` at 0 onto a cell in storage, onto a new one, and on a full half. -/
theorem witness_RightMovesAndGrows :
    ((loadTape [0x3E] ⟨2, []⟩ ⟨0, []⟩).Inv ∧ (loadTape [0x3E] ⟨2, []⟩ ⟨0, []⟩).skip = 0 ∧
      (loadTape [0x3E] ⟨2, []⟩ ⟨0, []⟩).tape.Materialised (0 + 1)) ∧
    ((load [0x3E]).Inv ∧ ¬ (load [0x3E]).tape.Materialised (0 + 1) ∧ (load [0x3E]).params.tapeHalfCapacity ≠ .cells 1) ∧
    ({ loadTape [0x3E] ⟨3, []⟩ ⟨0, []⟩ with addr := 2 } : State).Inv ∧
      ¬ (loadTape [0x3E] ⟨3, []⟩ ⟨0, []⟩).tape.Materialised (2 + 1) ∧
      (load [0x3E]).params.tapeHalfCapacity = .cells 3 :=
  ⟨⟨inv_of_bounded rfl (by decide), rfl, by decide⟩, ⟨inv_of_bounded rfl (by decide), by decide, by decide⟩,
    inv_of_bounded rfl (by decide), by decide, rfl⟩

/-- `<` at 0 onto a cell in storage, onto a new one, and on a full half. -/
theorem witness_LeftMovesAndGrows :
    ((loadTape [0x3C] ⟨1, []⟩ ⟨1, []⟩).Inv ∧ (loadTape [0x3C] ⟨1, []⟩ ⟨1, []⟩).skip = 0 ∧
      (loadTape [0x3C] ⟨1, []⟩ ⟨1, []⟩).tape.Materialised (0 - 1)) ∧
    ((load [0x3C]).Inv ∧ ¬ (load [0x3C]).tape.Materialised (0 - 1) ∧ (load [0x3C]).params.tapeHalfCapacity ≠ .cells 0) ∧
    ({ loadTape [0x3C] ⟨1, []⟩ ⟨3, []⟩ with addr := -3 } : State).Inv ∧
      ¬ (loadTape [0x3C] ⟨1, []⟩ ⟨3, []⟩).tape.Materialised (-3 - 1) ∧
      (load [0x3C]).params.tapeHalfCapacity = .cells 3 :=
  ⟨⟨inv_of_bounded rfl (by decide), rfl, by decide⟩, ⟨inv_of_bounded rfl (by decide), by decide, by decide⟩,
    inv_of_bounded rfl (by decide), by decide, rfl⟩

theorem witness_MovesFrame :
    exec .right (loadTape [] ⟨2, []⟩ ⟨0, []⟩) = .next { loadTape [] ⟨2, []⟩ ⟨0, []⟩ with addr := 1, pc := 1 } ∧
    exec .left { loadTape [] ⟨1, []⟩ ⟨3, []⟩ with addr := -3 } =
      .next { loadTape [] ⟨1, []⟩ ⟨3, []⟩ with addr := -3, fault := some .tapeExhausted } := ⟨rfl, rfl⟩

theorem witness_AddressMutatedOnlyByMoves :
    step (loadTape [0x3E] ⟨2, []⟩ ⟨0, []⟩) = .next { loadTape [0x3E] ⟨2, []⟩ ⟨0, []⟩ with addr := 1, pc := 1 } ∧
    (1 : Int) ≠ (load []).addr := ⟨rfl, by decide⟩

theorem witness_TapeGrowsOneCellAtATime :
    (load [0x3E]).Inv ∧ step (load [0x3E]) = .next { loadTape [0x3E] ⟨2, []⟩ ⟨0, []⟩ with addr := 1, pc := 1 } ∧
    (load [0x3C]).Inv ∧ step (load [0x3C]) = .next { loadTape [0x3C] ⟨1, []⟩ ⟨1, []⟩ with addr := -1, pc := 1 } ∧
    (load [0x2E]).Inv ∧ step (load [0x2E]) = .next { load [0x2E] with out := [0], pc := 1 } :=
  ⟨inv_of_bounded rfl (by decide), rfl, inv_of_bounded rfl (by decide), rfl, inv_of_bounded rfl (by decide), rfl⟩

theorem witness_ResolveMaterialisesAndKeepsValues :
    (load []).tape.wf ∧ TapeCapacity.Allows (.cells 1) (load []).tape.pos.len ∧
    TapeCapacity.Allows (.cells 1) (load []).tape.neg.len ∧
    (load []).tape.resolve (.cells 1) 0 = .ok (load []).tape ∧
    (load []).tape.resolve (.cells 1) (-1) = .ok ⟨⟨1, []⟩, ⟨1, []⟩⟩ ∧
    (load []).tape.resolve (.cells 1) 1 = .error .tapeExhausted :=
  ⟨by decide, Nat.le_refl 1, Nat.zero_le 1, rfl, rfl, rfl⟩

theorem witness_WrittenBytePersists :
    ((load []).tape.wf ∧ (load []).tape.memWrite 0 5 = some ((load []).tape.put 0 5)) ∧
    ((load []).tape.memRead 0 = some 0 ∧ (load []).tape.resolve .unbounded (-1) = .ok ⟨⟨1, []⟩, ⟨1, []⟩⟩) ∧
    step (load [0x78]) = .next { load [0x78] with pc := 1 } := ⟨by decide, ⟨by decide, rfl⟩, rfl⟩

theorem witness_UnboundedTapeNeverExhausted :
    (State.reset.withProg [0x78]).params.tapeHalfCapacity = .unbounded ∧
    (State.reset.withProg [0x78]).fault ≠ some .tapeExhausted ∧
    Reaches (State.reset.withProg [0x78]) { State.reset.withProg [0x78] with pc := 1 } :=
  ⟨rfl, by decide, .tail (.refl _) rfl⟩

theorem witness_IncAddsOneModulo256 :
    (loadTape [] (oneCell 255) ⟨0, []⟩).tape.wf ∧ (loadTape [] (oneCell 255) ⟨0, []⟩).skip = 0 ∧
    (loadTape [] (oneCell 255) ⟨0, []⟩).tape.memRead 0 = some 255 := by decide

theorem witness_DecSubtractsOneModulo256 :
    (load []).tape.wf ∧ (load []).skip = 0 ∧ (load []).tape.memRead 0 = some 0 ∧
    exec .inc (load []) = .next { loadTape [] (oneCell 1) ⟨0, []⟩ with pc := 1 } ∧
    exec .dec (load []) = .next { loadTape [] (oneCell 255) ⟨0, []⟩ with pc := 1 } :=
  ⟨by decide, rfl, by decide, rfl, rfl⟩

theorem witness_CellWritersFrame :
    exec .inc (load []) = .next { loadTape [] (oneCell 1) ⟨0, []⟩ with pc := 1 } ∧
    exec .dec (load []) = .next { loadTape [] (oneCell 255) ⟨0, []⟩ with pc := 1 } ∧
    exec .inp (load []) = .next { loadTape [] (oneCell 0x41) ⟨0, []⟩ with pc := 1, input := ⟨[], .endOfStream, 1⟩ } ∧
    (-1 : Int) ≠ (load []).addr := ⟨rfl, rfl, rfl, by decide⟩

theorem witness_NonStoringFrame :
    exec .out (load []) = .next { load [] with out := [0], pc := 1 } ∧
    exec .openLoop (load []) = .next { load [] with skip := 1, pc := 1 } ∧
    exec .closeLoop (load []) = .next { load [] with fault := some .loopStackUnderflow } ∧
    exec (.nop 0x78) (load []) = .next { load [] with pc := 1 } := ⟨rfl, rfl, rfl, rfl⟩

theorem witness_OutEmitsTheCurrentCell : (load []).skip = 0 ∧ (load []).tape.memRead (load []).addr = some 0 := by decide

theorem witness_InStoresTheAnswer :
    ((load []).tape.wf ∧ (load []).skip = 0 ∧ (load []).tape.Materialised (load []).addr) ∧
    inputNext (load []).input = some (.byte 0x41, ⟨[], .endOfStream, 1⟩) ∧
    inputNext ({ load [] with input := ⟨[], .endOfStream, 1⟩ } : State).input =
      some (.endOfStream, ⟨[], .endOfStream, 2⟩) := by decide

theorem witness_InputAnswersInOrder :
    (load []).input.queue = .byte 0x41 :: [] ∧
    ((⟨[], .endOfStream, 1⟩ : InputSource).queue = [] ∧ (⟨[], .endOfStream, 1⟩ : InputSource).afterQueue = .endOfStream) ∧
    InputSource.reset.queue = [] ∧ InputSource.reset.afterQueue = .free := by decide

/-- The waiting `,`, and the same step after an answer. -/
theorem witness_InWaitsUntilAnswered :
    ({ load [0x2C] with input := ⟨[], .silent, 0⟩ } : State).tape.wf ∧
    ({ load [0x2C] with input := ⟨[], .silent, 0⟩ } : State).tape.Materialised 0 ∧
    ({ load [0x2C] with input := ⟨[], .silent, 0⟩ } : State).Fetching 0x2C ∧
    step { load [0x2C] with input := ⟨[], .silent, 0⟩ } = .refused .waitingForInput ∧
    step (State.deliver { load [0x2C] with input := ⟨[], .silent, 0⟩ } (.byte 9)) =
      .next { loadTape [0x2C] (oneCell 9) ⟨0, []⟩ with pc := 1, input := ⟨[], .silent, 1⟩ } :=
  ⟨by decide, by decide, by decide, rfl, rfl⟩

theorem witness_OneChannelOneByteAStep :
    step (load [0x2E]) = .next { load [0x2E] with out := [0], pc := 1 } ∧
    step (load [0x2C]) =
      .next { loadTape [0x2C] (oneCell 0x41) ⟨0, []⟩ with pc := 1, input := ⟨[], .endOfStream, 1⟩ } ∧
    step (load [0x78]) = .next { load [0x78] with pc := 1 } := ⟨rfl, rfl, rfl⟩

theorem witness_InputIsNeverLookedAhead :
    (load [0x2C]).input.queue ≠ [] ∧
    ¬ (({ load [0x2C] with skip := 1 } : State).skip = 0 ∧ ({ load [0x2C] with skip := 1 } : State).Fetching 0x2C) := by
  decide

theorem witness_DebugIsUnobservable : Reaches (load [0x78]) { load [0x78] with pc := 1 } := .tail (.refl _) rfl

/-- A zero cell on a full stack; a non-zero cell with one place left; a non-zero cell on a full stack. -/
theorem witness_OpenSkipsOrPushes :
    (({ load [0x5B] with ls := [1, 2] } : State).skip = 0 ∧ (load [0x5B]).tape.memRead 0 = some 0 ∧
      ({ load [0x5B] with ls := [1, 2] } : State).lsp = (load [0x5B]).params.loopStackCapacity) ∧
    ((loadTape [0x5B] (oneCell 1) ⟨0, []⟩).tape.memRead 0 = some 1 ∧ (1 : Byte) ≠ 0 ∧
      ({ loadTape [0x5B] (oneCell 1) ⟨0, []⟩ with ls := [1] } : State).lsp ≠ (load [0x5B]).params.loopStackCapacity) ∧
    ({ loadTape [0x5B] (oneCell 1) ⟨0, []⟩ with ls := [1, 2] } : State).lsp = (load [0x5B]).params.loopStackCapacity ∧
    (load [0x5B]).Fetching 0x5B := by decide

theorem witness_CloseRepeatsOrLeaves :
    ((loadTape [] (oneCell 1) ⟨0, []⟩).skip = 0 ∧ (loadTape [] (oneCell 1) ⟨0, []⟩).tape.memRead 0 = some 1 ∧
      ({ loadTape [] (oneCell 1) ⟨0, []⟩ with ls := [3, 5] } : State).ls = [3] ++ [5] ∧ (1 : Byte) ≠ 0) ∧
    ((load []).tape.memRead 0 = some 0 ∧ ({ load [] with ls := [5] } : State).ls = [] ++ [5]) ∧
    (load []).skip = 0 ∧ (load []).ls = [] := by decide

theorem witness_LoopStackDiscipline :
    step (loadTape [0x5B] (oneCell 1) ⟨0, []⟩) = .next { loadTape [0x5B] (oneCell 1) ⟨0, []⟩ with ls := [1], pc := 1 } ∧
    step { load [0x5B, 0x5D] with pc := 1, ls := [1] } = .next { load [0x5B, 0x5D] with pc := 2 } := ⟨rfl, rfl⟩

/-- The state before the `]` of `[]`, its loop entered, whatever the tape holds. -/
theorem paired_in_loop (m : Memory) : ({ load [0x5B, 0x5D] with tape := m, pc := 1, ls := [1] } : State).Paired := by
  refine ⟨rfl, fun i e h => ?_, fun h => absurd h (Nat.lt_irrefl 0)⟩
  cases i with
  | succ i => exact absurd h (by simp)
  | zero =>
    cases h
    refine ⟨Nat.le_refl 1, Nat.lt_succ_self 0, rfl, rfl, fun k h1 h2 => ?_⟩
    have hk : k = 1 := Nat.le_antisymm h2 h1
    subst hk; exact Int.le_refl 1

/-- The `]` of `[]` on a non-zero cell, and on a zero cell. -/
theorem witness_CloseFindsItsOwnBracket :
    (({ loadTape [0x5B, 0x5D] (oneCell 1) ⟨0, []⟩ with pc := 1, ls := [1] } : State).Paired ∧
      ({ loadTape [0x5B, 0x5D] (oneCell 1) ⟨0, []⟩ with pc := 1, ls := [1] } : State).skip = 0 ∧
      ({ loadTape [0x5B, 0x5D] (oneCell 1) ⟨0, []⟩ with pc := 1, ls := [1] } : State).Fetching 0x5D ∧
      ({ loadTape [0x5B, 0x5D] (oneCell 1) ⟨0, []⟩ with pc := 1, ls := [1] } : State).ls ≠ [] ∧
      ({ loadTape [0x5B, 0x5D] (oneCell 1) ⟨0, []⟩ with pc := 1, ls := [1] } : State).cur ≠ some 0 ∧
      step { loadTape [0x5B, 0x5D] (oneCell 1) ⟨0, []⟩ with pc := 1, ls := [1] } =
        .next { loadTape [0x5B, 0x5D] (oneCell 1) ⟨0, []⟩ with pc := 1, ls := [1] }) ∧
    ({ load [0x5B, 0x5D] with pc := 1, ls := [1] } : State).Paired ∧
      ({ load [0x5B, 0x5D] with pc := 1, ls := [1] } : State).skip = 0 ∧
      ({ load [0x5B, 0x5D] with pc := 1, ls := [1] } : State).Fetching 0x5D ∧
      ({ load [0x5B, 0x5D] with pc := 1, ls := [1] } : State).ls ≠ [] ∧
      ({ load [0x5B, 0x5D] with pc := 1, ls := [1] } : State).cur = some 0 ∧
      step { load [0x5B, 0x5D] with pc := 1, ls := [1] } = .next { load [0x5B, 0x5D] with pc := 2 } :=
  ⟨⟨paired_in_loop _, rfl, by decide, by decide, by decide, rfl⟩,
    paired_in_loop _, rfl, by decide, by decide, by decide, rfl⟩

theorem witness_BalancedProgramNeverUnderflows :
    BracketsBalanced [0x5B, 0x5D] ∧ Reaches (load [0x5B, 0x5D]) { load [0x5B, 0x5D] with pc := 2 } ∧
    ({ load [0x5B, 0x5D] with pc := 2 } : State).status = .halted := by
  refine ⟨⟨fun k => ?_, rfl⟩, .tail (.tail (.refl _) rfl) rfl, rfl⟩
  match k with
  | 0 => decide
  | 1 => decide
  | k + 2 =>
    have h : bracketDepth [0x5B, 0x5D] (k + 2) = bracketDepth [0x5B, 0x5D] 2 := by simp [bracketDepth]
    rw [h]; decide

theorem witness_ReadingAGivesTheSameMachine :
    (({ loadTape [0x5B, 0x5D] (oneCell 1) ⟨0, []⟩ with pc := 1, ls := [1] } : State).Inv ∧
      ({ loadTape [0x5B, 0x5D] (oneCell 1) ⟨0, []⟩ with pc := 1, ls := [1] } : State).Fetching 0x5D ∧
      ({ loadTape [0x5B, 0x5D] (oneCell 1) ⟨0, []⟩ with pc := 1, ls := [1] } : State).skip = 0 ∧
      ({ loadTape [0x5B, 0x5D] (oneCell 1) ⟨0, []⟩ with pc := 1, ls := [1] } : State).cur ≠ some 0 ∧
      ({ loadTape [0x5B, 0x5D] (oneCell 1) ⟨0, []⟩ with pc := 1, ls := [1] } : State).ls ≠ [] ∧
      step { loadTape [0x5B, 0x5D] (oneCell 1) ⟨0, []⟩ with pc := 1, ls := [1] } =
        .next { loadTape [0x5B, 0x5D] (oneCell 1) ⟨0, []⟩ with pc := 1, ls := [1] }) ∧
    (load [0x2B]).Inv ∧ ¬ (load [0x2B]).Fetching 0x5D :=
  ⟨⟨inv_of_bounded rfl (by decide), by decide, rfl, by decide, by decide, rfl⟩, inv_of_bounded rfl (by decide), by decide⟩

theorem witness_FaultsArePrecise :
    step (load [0x5D]) = .next { load [0x5D] with fault := some .loopStackUnderflow } ∧
    ({ load [0x5D] with fault := some .loopStackUnderflow } : State).fault = some .loopStackUnderflow := ⟨rfl, rfl⟩

/-- One state for each cause. -/
theorem witness_FaultCauses :
    (({ loadTape [0x5B, 0x5B, 0x5B] (oneCell 1) ⟨0, []⟩ with pc := 2, ls := [1, 2] } : State).Inv ∧
      step { loadTape [0x5B, 0x5B, 0x5B] (oneCell 1) ⟨0, []⟩ with pc := 2, ls := [1, 2] } =
        .next { loadTape [0x5B, 0x5B, 0x5B] (oneCell 1) ⟨0, []⟩ with
          pc := 2, ls := [1, 2], fault := some .loopStackOverflow }) ∧
    ((load [0x5D]).Inv ∧ step (load [0x5D]) = .next { load [0x5D] with fault := some .loopStackUnderflow }) ∧
    (({ loadTape [0x3E] ⟨3, []⟩ ⟨0, []⟩ with addr := 2 } : State).Inv ∧
      step { loadTape [0x3E] ⟨3, []⟩ ⟨0, []⟩ with addr := 2 } =
        .next { loadTape [0x3E] ⟨3, []⟩ ⟨0, []⟩ with addr := 2, fault := some .tapeExhausted }) ∧
    ({ loadTape [0x3C] ⟨1, []⟩ ⟨3, []⟩ with addr := -3 } : State).Inv ∧
      step { loadTape [0x3C] ⟨1, []⟩ ⟨3, []⟩ with addr := -3 } =
        .next { loadTape [0x3C] ⟨1, []⟩ ⟨3, []⟩ with addr := -3, fault := some .tapeExhausted } :=
  ⟨⟨inv_of_bounded rfl (by decide), rfl⟩, ⟨inv_of_bounded rfl (by decide), rfl⟩,
    ⟨inv_of_bounded rfl (by decide), rfl⟩, inv_of_bounded rfl (by decide), rfl⟩

theorem witness_UnmaterialisedCellIsRefused :
    (load []).skip = 0 ∧ ¬ ({ load [] with addr := 1, ls := [1] } : State).tape.Materialised 1 ∧
    ({ load [] with addr := 1, ls := [1] } : State).ls ≠ [] ∧
    inputNext (load []).input = some (.byte 0x41, ⟨[], .endOfStream, 1⟩) := by decide

theorem witness_ResetState : (load []).params.Legal ∧ Params.reset.Legal := by decide

theorem witness_InvariantsHoldAtReset :
    ({ prog := [], loopStackCapacity := 0, tapeHalfCapacity := .cells 1, debug := 0 } : Params).Legal ∧
    Params.reset.Legal := by decide

theorem witness_EveryStepKeepsTheInvariant :
    (load [0x3E]).Inv ∧ step (load [0x3E]) = .next { loadTape [0x3E] ⟨2, []⟩ ⟨0, []⟩ with addr := 1, pc := 1 } :=
  ⟨inv_of_bounded rfl (by decide), rfl⟩

theorem witness_EveryStepKeepsThePairing :
    (load [0x5B]).Paired ∧ step (load [0x5B]) = .next { load [0x5B] with skip := 1, pc := 1 } := ⟨paired_load _, rfl⟩

theorem witness_RegisterBoundsOnEveryRun :
    (load [0x3C]).params.Legal ∧ (load [0x3C]).params.tapeHalfCapacity = .cells 3 ∧
    Reaches (load [0x3C]) { loadTape [0x3C] ⟨1, []⟩ ⟨1, []⟩ with addr := -1, pc := 1 } :=
  ⟨by decide, rfl, .tail (.refl _) rfl⟩

theorem witness_TapeShapeOnEveryRun :
    (load [0x3E]).params.Legal ∧ Reaches (load [0x3E]) (load [0x3E]) ∧
    Reaches (load [0x3E]) { loadTape [0x3E] ⟨2, []⟩ ⟨0, []⟩ with addr := 1, pc := 1 } :=
  ⟨by decide, .refl _, .tail (.refl _) rfl⟩

theorem witness_RunningStepAlwaysCompletes :
    ((load [0x2B]).Inv ∧ (load [0x2B]).status = .running) ∧
    ({ load [0x2C] with input := ⟨[], .silent, 0⟩ } : State).Inv ∧
    ({ load [0x2C] with input := ⟨[], .silent, 0⟩ } : State).status = .running :=
  ⟨⟨inv_of_bounded rfl (by decide), rfl⟩, inv_of_bounded rfl (by decide), rfl⟩

/-- One tape with a cell that another has not yet materialised. -/
theorem witness_TapeStorageIsUnobservable :
    (State.reset.withProg [0x3E]).params.tapeHalfCapacity = .unbounded ∧
    SameButTapeStorage (State.reset.withProg [0x3E])
      { State.reset.withProg [0x3E] with tape := ⟨⟨2, []⟩, ⟨0, []⟩⟩ } := by
  refine ⟨rfl, rfl, fun a => ?_, by decide, by decide, by decide, by decide⟩
  rw [Memory.value_eq_read (by decide), Memory.value_eq_read (by decide)]
  cases (Memory.locate a).side <;> rfl

end Sys2Proof.Tests
end

section
/-! PROOFS. The run status, the invariant of the machine along a run, and the statements of 00_scope.md. -/

namespace Sys2Proof.Machine

/-! ### Run status and verdict (00_scope.md R18, 60_exceptions.md R207) -/

theorem State.status_of_fault {s : State} {c : Fault} (h : s.fault = some c) : s.status = .faulted c := by
  simp only [State.status, h]

theorem State.status_of_atEnd {s : State} (h : s.fault = none) (hpc : s.pc = s.progLen) : s.status = .halted := by
  simp only [State.status, h, if_pos hpc]

theorem State.status_of_not_atEnd {s : State} (h : s.fault = none) (hpc : s.pc ≠ s.progLen) :
    s.status = .running := by
  simp only [State.status, h, if_neg hpc]

theorem faultCode_some_ne_zero (c : Fault) : faultCode (some c) ≠ 0 := by
  cases c <;> decide

/-- Settles O8: one case per run status, and no cause has the code of `NONE`. -/
theorem runStatusAndVerdict : Obligations.RunStatusAndVerdict := by
  intro s
  refine ⟨fun c h => ?_, fun h hpc => ?_, fun h hpc => ?_⟩
  · rw [State.status_of_fault h, h]
    exact ⟨rfl, rfl, faultCode_some_ne_zero c⟩
  · rw [State.status_of_atEnd h hpc]
    exact ⟨rfl, rfl⟩
  · rw [State.status_of_not_atEnd h hpc]
    exact ⟨rfl, rfl⟩

/-! ### The tape's capacity and the addresses in storage (20_memory.md R51, R55) -/

@[simp] theorem TapeCapacity.allows_unbounded (len : Nat) : TapeCapacity.Allows .unbounded len := trivial

@[simp] theorem TapeCapacity.allows_cells {n len : Nat} : TapeCapacity.Allows (.cells n) len ↔ len ≤ n := Iff.rfl

theorem TapeCapacity.allows_zero (cap : TapeCapacity) : TapeCapacity.Allows cap 0 := by
  cases cap <;> simp

theorem TapeCapacity.allows_one {cap : TapeCapacity} (h : cap ≠ .cells 0) : TapeCapacity.Allows cap 1 := by
  cases cap with
  | unbounded => exact TapeCapacity.allows_unbounded 1
  | cells n => exact TapeCapacity.allows_cells.mpr (Nat.one_le_iff_ne_zero.mpr fun hn => h (congrArg _ hn))

/-- A half within the capacity that is not full may grow by one cell (20_memory.md R55). -/
theorem TapeCapacity.allows_succ {cap : TapeCapacity} {len : Nat} (h : TapeCapacity.Allows cap len)
    (hf : ¬ TapeCapacity.isFull cap len) : TapeCapacity.Allows cap (len + 1) := by
  cases cap with
  | unbounded => exact TapeCapacity.allows_unbounded _
  | cells n =>
    simp only [TapeCapacity.isFull, beq_iff_eq, TapeCapacity.allows_cells] at *
    omega

/-- Growth stays within the capacity. -/
theorem Half.grow_allows {cap : TapeCapacity} {n : Nat} {h h' : Half} (hg : Half.grow cap n h = .ok h')
    (hc : TapeCapacity.Allows cap h.len) : TapeCapacity.Allows cap h'.len := by
  induction n generalizing h with
  | zero => cases hg; exact hc
  | succ n ih =>
    simp only [Half.grow] at hg
    split at hg
    · cases hg
    · exact ih hg (TapeCapacity.allows_succ hc ‹_›)

/-- `Resolve` keeps both halves within the capacity (20_memory.md R55). -/
theorem Memory.resolve_allows {m m' : Memory} {cap : TapeCapacity} {a : Int} (h : m.resolve cap a = .ok m')
    (hc : ∀ side, TapeCapacity.Allows cap (m.half side).len) (side : Side) :
    TapeCapacity.Allows cap (m'.half side).len := by
  by_cases hs : side = (Memory.locate a).side
  · subst hs
    unfold Memory.resolve at h
    split at h
    · rename_i h' hr
      cases h
      rw [half_setHalf_same]
      exact Half.grow_allows hr (hc _)
    · cases h
  · obtain ⟨-, hother, -, -⟩ := Memory.resolve_ok h
    rw [hother side hs]
    exact hc side

theorem Memory.materialised_zero {m : Memory} : m.Materialised 0 ↔ 1 ≤ m.pos.len := Iff.rfl

/-- The addresses in storage are `-neg_len .. pos_len - 1` (10_state.md R32). -/
theorem Memory.materialised_iff {m : Memory} {a : Int} :
    m.Materialised a ↔ -(m.neg.len : Int) ≤ a ∧ a ≤ (m.pos.len : Int) - 1 := by
  by_cases ha : 0 ≤ a
  · simp only [Memory.Materialised, Memory.locate, if_pos ha, Memory.half]
    omega
  · simp only [Memory.Materialised, Memory.locate, if_neg ha, Memory.half]
    omega

/-! ### What a step can do, with the byte it fetched -/

theorem skipAfter_le (i : Instr) (n : Nat) : skipAfter i n ≤ n + 1 := by
  cases i <;> simp only [skipAfter] <;> omega

/-- Every step fetches a byte and then acts by the mode (40_sequencer.md R102, R104). -/
theorem step_next_cases {s t : State} (h : step s = .next t) :
    ∃ b, s.Fetching b ∧
      ((0 < s.skip ∧ t = (s.withSkip (skipAfter (decodeByte b) s.skip)).advance) ∨
        (s.skip = 0 ∧ NormalEffect (decodeByte b) s t)) := by
  obtain ⟨b, hb, hx⟩ := step_next h
  exact ⟨b, hb, exec_next_cases hx⟩

theorem NormalEffect.params_eq {i : Instr} {s t : State} (h : NormalEffect i s t) : t.params = s.params := by
  cases h <;> rfl

/-- No step writes the parameters (10_state.md R36). -/
theorem step_params {s t : State} (h : step s = .next t) : t.params = s.params := by
  obtain ⟨b, -, ⟨-, rfl⟩ | ⟨-, he⟩⟩ := step_next_cases h
  · rfl
  · exact he.params_eq

theorem Reaches.params_eq {s t : State} (h : Reaches s t) : t.params = s.params :=
  h.induction_inv (P := fun u => u.params = s.params) rfl fun _ _ hu hstep => (step_params hstep).trans hu

/-! ### The invariant under each update of the state -/

section
variable {s : State} (hi : s.Inv)
include hi

theorem State.Inv.allows (side : Side) :
    TapeCapacity.Allows s.params.tapeHalfCapacity (s.tape.half side).len := by
  cases side
  · exact hi.posCapacity
  · exact hi.negCapacity

theorem State.Inv.withFault (c : Fault) : (s.withFault c).Inv := { hi with }

theorem State.Inv.withOut (o : List Byte) : (s.withOut o).Inv := { hi with }

theorem State.Inv.withInput (q : InputSource) : (s.withInput q).Inv := { hi with }

/-- `pc` advances within the program, `skip` becoming anything within the bytes then passed. -/
theorem State.Inv.withSkip_advance (hpc : s.pc < s.progLen) {n : Nat} (hn : n ≤ s.pc + 1) :
    (s.withSkip n).advance.Inv :=
  { hi with
    pcBound := hpc
    stackEntries := fun e he =>
      have ⟨h1, hle, hopen⟩ := hi.stackEntries e he
      ⟨h1, Nat.le_succ_of_le hle, hopen⟩
    skipBound := hn }

theorem State.Inv.advance (hpc : s.pc < s.progLen) : s.advance.Inv :=
  hi.withSkip_advance hpc (Nat.le_succ_of_le hi.skipBound)

/-- A tape in canonical form within the capacity, that holds address 0 and the new `addr`. -/
theorem State.Inv.withTape_withAddr {m : Memory} {a : Int} (hw : m.wf) (h0 : m.Materialised 0)
    (ha : m.Materialised a) (hc : ∀ side, TapeCapacity.Allows s.params.tapeHalfCapacity (m.half side).len) :
    ((s.withTape m).withAddr a).Inv :=
  { hi with
    tapeWf := hw
    origin := Memory.materialised_zero.mp h0
    current := ha
    posCapacity := hc .positive
    negCapacity := hc .negative }

/-- A move onto a resolved address (41_pointer_moves.md R120, R121). -/
theorem State.Inv.move {m : Memory} {a : Int} (hr : s.tape.resolve s.params.tapeHalfCapacity a = .ok m) :
    ((s.withTape m).withAddr a).Inv :=
  hi.withTape_withAddr (Memory.resolve_wf hi.tapeWf hr)
    (Memory.resolve_mono hr (Memory.materialised_zero.mpr hi.origin)) (Memory.resolve_ok hr).1
    (Memory.resolve_allows hr hi.allows)

theorem State.Inv.setCur (v : Byte) : (s.setCur v).Inv :=
  hi.withTape_withAddr (Memory.put_wf hi.tapeWf hi.current v)
    ((Memory.put_materialised ..).mpr (Memory.materialised_zero.mpr hi.origin))
    ((Memory.put_materialised ..).mpr hi.current)
    fun side => by rw [Memory.put_half_len]; exact hi.allows side

/-- Entering a loop: the pushed resume point lies above every entry (44_loop_control.md R150, R152). -/
theorem State.Inv.push_advance (hopen : s.params.prog[s.pc]? = some symOpen)
    (hc : s.lsp ≠ s.params.loopStackCapacity) : (s.withStack (s.ls ++ [s.pc + 1])).advance.Inv := by
  have hadv := hi.advance (List.getElem?_eq_some_iff.mp hopen).1
  refine { hadv with stackBound := ?_, stackEntries := fun e he => ?_, stackRising := ?_ }
  · exact Nat.le_trans (Nat.le_of_eq List.length_append) (Nat.lt_of_le_of_ne hi.stackBound hc)
  · rcases List.mem_append.mp he with he | he
    · exact hadv.stackEntries e he
    · cases List.mem_singleton.mp he
      exact ⟨Nat.le_add_left 1 s.pc, Nat.le_refl _, hopen⟩
  · refine List.pairwise_append.mpr ⟨hi.stackRising, List.pairwise_singleton .., fun e he x hx => ?_⟩
    cases List.mem_singleton.mp hx
    exact Nat.lt_succ_of_le (hi.stackEntries e he).2.1

/-- Leaving a loop: the top entry is discarded (44_loop_control.md R151). -/
theorem State.Inv.pop {ls : List Nat} {e : Nat} (hls : s.ls = ls ++ [e]) : (s.withStack ls).Inv :=
  have hsub : ls.Sublist s.ls := hls ▸ List.sublist_append_left ls [e]
  { hi with
    stackBound := Nat.le_trans hsub.length_le hi.stackBound
    stackEntries := fun x hx => hi.stackEntries x (hsub.subset hx)
    stackRising := hi.stackRising.sublist hsub }

/-- Repeating a loop: the top entry is the greatest, so every entry stays at or before `pc`
(44_loop_control.md R151, R152). -/
theorem State.Inv.jump_top {ls : List Nat} {e : Nat} (hls : s.ls = ls ++ [e]) (hs : s.skip = 0) :
    (s.jump e).Inv := by
  have htop : ∀ x ∈ s.ls, x ≤ e := by
    obtain ⟨-, -, hrise⟩ := List.pairwise_append.mp (hls ▸ hi.stackRising)
    intro x hx
    rcases List.mem_append.mp (hls ▸ hx) with hx | hx
    · exact Nat.le_of_lt (hrise x hx e (List.mem_singleton_self e))
    · exact Nat.le_of_eq (List.mem_singleton.mp hx)
  have he : e ≤ s.pc := (hi.stackEntries e (by simp [hls])).2.1
  exact { hi with
    pcBound := Nat.le_trans he hi.pcBound
    stackEntries := fun x hx =>
      have ⟨h1, _, hopen⟩ := hi.stackEntries x hx
      ⟨h1, htop x hx, hopen⟩
    skipBound := Nat.le_trans (Nat.le_of_eq hs) (Nat.zero_le e) }

end

/-! ### The invariant along a run -/

/-- Every effect of normal mode keeps the invariant, where its instruction stands at `pc`. -/
theorem NormalEffect.keeps_inv {b : Byte} {s t : State} (he : NormalEffect (decodeByte b) s t) (hi : s.Inv)
    (hb : s.Fetching b) (hs : s.skip = 0) : t.Inv := by
  have hpc := pc_lt_of_fetching hb
  generalize hd : decodeByte b = i at he
  cases he with
  | moved _ hr => exact (hi.move hr).advance hpc
  | counted => exact (hi.setCur _).advance hpc
  | emitted => exact (hi.withOut _).advance hpc
  | received => exact ((hi.setCur _).withInput _).advance hpc
  | ended => exact (hi.withInput _).advance hpc
  | skipped => exact hi.withSkip_advance hpc (Nat.le_add_left 1 s.pc)
  | entered _ _ hc => exact hi.push_advance (decodeByte_eq_openLoop.mp hd ▸ hb.2) hc
  | repeated hls => exact hi.jump_top hls hs
  | left hls => exact (hi.pop hls).advance hpc
  | passed => exact hi.advance hpc
  | exhausted | overflowed | underflowed => exact hi.withFault _

/-- The invariant of the machine is inductive: a skip-mode step stays within its bounds, and every effect of normal
mode keeps it. -/
theorem step_keeps_inv {s t : State} (hi : s.Inv) (h : step s = .next t) : t.Inv := by
  obtain ⟨b, hb, ⟨-, rfl⟩ | ⟨hs, he⟩⟩ := step_next_cases h
  · exact hi.withSkip_advance (pc_lt_of_fetching hb)
      (Nat.le_trans (skipAfter_le _ _) (Nat.succ_le_succ hi.skipBound))
  · exact he.keeps_inv hi hb hs

/-- The invariant holds after reset (10_state.md R37). -/
theorem State.boot_inv {p : Params} (q : InputSource) (hp : p.Legal) : (State.boot p q).Inv where
  tapeWf := reset_tape_wf
  origin := Nat.le_refl 1
  current := Memory.materialised_zero.mpr (Nat.le_refl 1)
  posCapacity := TapeCapacity.allows_one hp
  negCapacity := TapeCapacity.allows_zero _
  pcBound := Nat.zero_le _
  stackBound := Nat.zero_le _
  stackEntries := fun _ he => absurd he List.not_mem_nil
  stackRising := .nil
  skipBound := Nat.le_refl 0

theorem Reaches.inv {s t : State} (h : Reaches s t) (hi : s.Inv) : t.Inv :=
  h.induction_inv hi fun _ _ hu hstep => step_keeps_inv hu hstep

/-! ### The bounds that follow from the invariant (00_scope.md R11) -/

theorem State.Inv.skip_le_progLen {s : State} (hi : s.Inv) : s.skip ≤ s.progLen :=
  Nat.le_trans hi.skipBound hi.pcBound

theorem State.Inv.stackEntry_bounds {s : State} (hi : s.Inv) {e : Nat} (he : e ∈ s.ls) :
    1 ≤ e ∧ e ≤ s.progLen := by
  obtain ⟨h1, hpc, -⟩ := hi.stackEntries e he
  exact ⟨h1, Nat.le_trans hpc hi.pcBound⟩

theorem State.Inv.addr_bounds {s : State} (hi : s.Inv) {n : Nat} (hn : s.params.tapeHalfCapacity = .cells n) :
    -(n : Int) ≤ s.addr ∧ s.addr ≤ (n : Int) - 1 := by
  obtain ⟨hlo, hhi⟩ := Memory.materialised_iff.mp hi.current
  have hpos : s.tape.pos.len ≤ n := TapeCapacity.allows_cells.mp (hn ▸ hi.posCapacity)
  have hneg : s.tape.neg.len ≤ n := TapeCapacity.allows_cells.mp (hn ▸ hi.negCapacity)
  omega

/-- Settles O48: the invariant holds at reset and every step keeps it, and the bounds follow from it. -/
theorem registerBoundsOnEveryRun : Obligations.RegisterBoundsOnEveryRun := by
  intro p q s hp hr
  have hi : s.Inv := hr.inv (State.boot_inv q hp)
  obtain rfl : s.params = p := hr.params_eq
  exact ⟨hi.pcBound, hi.skip_le_progLen, hi.stackBound, fun _ he => hi.stackEntry_bounds he, hi.current,
    fun _ hn => hi.addr_bounds hn⟩

end Sys2Proof.Machine
end

section
/-! PROOFS. What a step does to the tape and `addr`, what the environment holds and no step reads, reset, and the
statements of 10_state.md. -/

namespace Sys2Proof.Machine

/-! ### The machine's invariant (10_state.md R26, R31) -/

/-- Settles O46: every effect of normal mode, and every skip-mode step, keeps each part of the invariant. -/
theorem everyStepKeepsTheInvariant : Obligations.EveryStepKeepsTheInvariant :=
  fun _ _ => step_keeps_inv

/-! ### What a step answers, by the run status and the fetch (40_sequencer.md R100 to R102) -/

theorem step_of_fault {s : State} {c : Fault} (h : s.fault = some c) : step s = .fault c := by
  simp only [step, h]

theorem step_of_atEnd {s : State} (h : s.fault = none) (hpc : s.pc = s.progLen) : step s = .refused .halted := by
  simp only [step, h, if_pos hpc]

theorem step_of_noProgramByte {s : State} (h : s.fault = none) (hpc : s.pc ≠ s.progLen)
    (hb : s.params.prog[s.pc]? = none) : step s = .refused .noProgramByte := by
  simp only [step, h, if_neg hpc, fetchBytes, progRead, hb, Option.toList_none, decode]

theorem step_of_fetching {s : State} {b : Byte} (h : s.Fetching b) : step s = exec (decodeByte b) s := by
  obtain ⟨hfault, hb⟩ := h
  have hpc : s.pc ≠ s.progLen := Nat.ne_of_lt (pc_lt_of_fetching ⟨hfault, hb⟩)
  simp only [step, hfault, if_neg hpc, fetchBytes, progRead, hb, Option.toList_some, decode_cons]

/-! ### What a step does to the tape and `addr` (10_state.md R22, R32; 41_pointer_moves.md R122) -/

theorem decodeByte_eq_right {b : Byte} : decodeByte b = .right ↔ b = symRight := by
  revert b; decide

theorem decodeByte_eq_left {b : Byte} : decodeByte b = .left ↔ b = symLeft := by
  revert b; decide

/-- In normal mode an instruction leaves the tape and `addr`, or stores to the current cell, or moves onto a resolved
address next to the old one. -/
theorem NormalEffect.tape_cases {i : Instr} {s t : State} (h : NormalEffect i s t) :
    (t.addr = s.addr ∧ (t.tape = s.tape ∨ ∃ v, t.tape = s.tape.put s.addr v)) ∨
      (((i = .right ∧ t.addr = s.addr + 1) ∨ (i = .left ∧ t.addr = s.addr - 1)) ∧
        s.tape.resolve s.params.tapeHalfCapacity t.addr = .ok t.tape) := by
  cases h with
  | moved hi hr => exact .inr ⟨hi, hr⟩
  | counted | received => exact .inl ⟨rfl, .inr ⟨_, rfl⟩⟩
  | exhausted | emitted | ended | skipped | entered | overflowed | underflowed | repeated | left | passed =>
    exact .inl ⟨rfl, .inl rfl⟩

/-- The same of a step, with the byte a move fetched. -/
theorem step_tape_cases {s t : State} (h : step s = .next t) :
    (t.addr = s.addr ∧ (t.tape = s.tape ∨ ∃ v, t.tape = s.tape.put s.addr v)) ∨
      (s.skip = 0 ∧
        ((s.Fetching symRight ∧ t.addr = s.addr + 1) ∨ (s.Fetching symLeft ∧ t.addr = s.addr - 1)) ∧
        s.tape.resolve s.params.tapeHalfCapacity t.addr = .ok t.tape) := by
  obtain ⟨b, hb, ⟨-, rfl⟩ | ⟨hs, he⟩⟩ := step_next_cases h
  · exact .inl ⟨rfl, .inl rfl⟩
  · refine he.tape_cases.imp_right fun ⟨hmove, hr⟩ => ⟨hs, hmove.imp ?_ ?_, hr⟩
    · exact And.imp_left fun hi => decodeByte_eq_right.mp hi ▸ hb
    · exact And.imp_left fun hi => decodeByte_eq_left.mp hi ▸ hb

/-- Settles O18: of what a step can do to the tape and `addr`, only a move changes `addr`, and `Resolve` has
materialised the new address. -/
theorem addressMutatedOnlyByMoves : Obligations.AddressMutatedOnlyByMoves := by
  intro s t h hne
  obtain ⟨hsame, -⟩ | ⟨hs, hmove, hr⟩ := step_tape_cases h
  · exact absurd hsame hne
  · exact ⟨hs, (Memory.resolve_ok hr).1, hmove⟩

/-! ### The span of the tape along a run (10_state.md R32) -/

/-- No step forgets a cell (20_memory.md R54). -/
theorem step_materialised_mono {s t : State} {a : Int} (h : step s = .next t) (ha : s.tape.Materialised a) :
    t.tape.Materialised a := by
  obtain ⟨-, hsame | ⟨v, hput⟩⟩ | ⟨-, -, hr⟩ := step_tape_cases h
  · rwa [hsame]
  · rwa [hput, Memory.put_materialised]
  · exact Memory.resolve_mono hr ha

theorem Reaches.materialised_mono {s t : State} {a : Int} (h : Reaches s t) (ha : s.tape.Materialised a) :
    t.tape.Materialised a :=
  h.induction_inv ha fun _ _ hu hstep => step_materialised_mono hstep hu

/-- A half that `Resolve(a)` lengthens ends at `a` (20_memory.md R52). -/
theorem Memory.resolve_ends {m m' : Memory} {cap : TapeCapacity} {a : Int} (h : m.resolve cap a = .ok m') :
    (m'.pos.len = m.pos.len ∨ a = (m'.pos.len : Int) - 1) ∧ (m'.neg.len = m.neg.len ∨ a = -(m'.neg.len : Int)) := by
  obtain ⟨-, hother, hlen, -⟩ := Memory.resolve_ok h
  by_cases ha : 0 ≤ a
  · simp only [Memory.locate, if_pos ha] at hother hlen
    have hneg : m'.neg = m.neg := hother .negative (by decide)
    refine ⟨?_, .inl (congrArg Half.len hneg)⟩
    simp only [Memory.half] at hlen
    omega
  · simp only [Memory.locate, if_neg ha] at hother hlen
    have hpos : m'.pos = m.pos := hother .positive (by decide)
    refine ⟨.inl (congrArg Half.len hpos), ?_⟩
    simp only [Memory.half] at hlen
    omega

/-- A half that a step lengthens ends at the new `addr`. -/
theorem step_ends {s t : State} (h : step s = .next t) :
    (t.tape.pos.len = s.tape.pos.len ∨ t.addr = (t.tape.pos.len : Int) - 1) ∧
      (t.tape.neg.len = s.tape.neg.len ∨ t.addr = -(t.tape.neg.len : Int)) := by
  obtain ⟨-, hsame | ⟨v, hput⟩⟩ | ⟨-, -, hr⟩ := step_tape_cases h
  · rw [hsame]; exact ⟨.inl rfl, .inl rfl⟩
  · rw [hput, Memory.put_pos_len, Memory.put_neg_len]; exact ⟨.inl rfl, .inl rfl⟩
  · exact Memory.resolve_ends hr

/-- An end of the tape that only moves to the new `addr` has been the address of some state of the run. -/
theorem Reaches.exists_at_end {e : State → Int} (hstep : ∀ u v, step u = .next v → e v = e u ∨ v.addr = e v)
    {s t : State} (hs : s.addr = e s) (h : Reaches s t) : ∃ u, Reaches s u ∧ Reaches u t ∧ u.addr = e t := by
  induction h with
  | refl => exact ⟨s, .refl s, .refl s, hs⟩
  | tail hr hnext ih =>
    obtain hkept | hmoved := hstep _ _ hnext
    · obtain ⟨u, hsu, hut, hu⟩ := ih
      exact ⟨u, hsu, .tail hut hnext, hkept ▸ hu⟩
    · exact ⟨_, .tail hr hnext, .refl _, hmoved⟩

/-- Settles O49: every address of the run was in storage and stays so, and each end starts at address 0 and then only
moves to the address of the step that lengthens its half. -/
theorem tapeShapeOnEveryRun : Obligations.TapeShapeOnEveryRun := by
  intro p q s hp hr
  have hboot := State.boot_inv q hp
  refine ⟨(hr.inv hboot).origin, fun a => Memory.materialised_iff,
    fun u hu hus => hus.materialised_mono (hu.inv hboot).current, ?_, ?_⟩
  · refine hr.exists_at_end (e := fun u => (u.tape.pos.len : Int) - 1) (fun u v h => ?_) rfl
    exact (step_ends h).1.imp_left fun hlen => by rw [hlen]
  · refine hr.exists_at_end (e := fun u => -(u.tape.neg.len : Int)) (fun u v h => ?_) rfl
    exact (step_ends h).2.imp_left fun hlen => by rw [hlen]

/-! ### What no step reads (10_state.md R38, R39) -/

/-- A change of the environment's part of the state: the output record, the input source and `DEBUG`. -/
structure EnvChange where
  out : List Byte → List Byte := id
  input : InputSource → InputSource := id
  debug : Nat → Nat := id

/-- The state after a change of the environment's part; the machine's own state, the program and the capacities are
as before. -/
def State.changeEnv (e : EnvChange) (s : State) : State :=
  { s with
    out := e.out s.out
    input := e.input s.input
    params := { s.params with debug := e.debug s.params.debug } }

/-- Earlier output in front of what a step appends (10_state.md R39). -/
def EnvChange.earlierOutput (earlier : List Byte) : EnvChange := { out := (earlier ++ ·) }

/-- One more answer lined up (43_byte_io.md R144). -/
def EnvChange.delivery (item : InputItem) : EnvChange :=
  { input := fun q => { q with queue := q.queue ++ [item] } }

/-- Another value of `DEBUG` (00_scope.md R12). -/
def EnvChange.debugValue (d : Nat) : EnvChange := { debug := fun _ => d }

theorem State.changeEnv_earlierOutput (s : State) (earlier : List Byte) :
    s.changeEnv (.earlierOutput earlier) = { s with out := earlier ++ s.out } := rfl

theorem State.changeEnv_delivery (s : State) (item : InputItem) :
    s.changeEnv (.delivery item) = s.deliver item := rfl

theorem State.changeEnv_debugValue (s : State) (d : Nat) : s.changeEnv (.debugValue d) = s.withDebug d := rfl

section
variable (e : EnvChange) (s : State)
@[simp] theorem State.changeEnv_pc : (s.changeEnv e).pc = s.pc := rfl
@[simp] theorem State.changeEnv_addr : (s.changeEnv e).addr = s.addr := rfl
@[simp] theorem State.changeEnv_skip : (s.changeEnv e).skip = s.skip := rfl
@[simp] theorem State.changeEnv_ls : (s.changeEnv e).ls = s.ls := rfl
@[simp] theorem State.changeEnv_tape : (s.changeEnv e).tape = s.tape := rfl
@[simp] theorem State.changeEnv_fault : (s.changeEnv e).fault = s.fault := rfl
@[simp] theorem State.changeEnv_out : (s.changeEnv e).out = e.out s.out := rfl
@[simp] theorem State.changeEnv_input : (s.changeEnv e).input = e.input s.input := rfl
@[simp] theorem State.changeEnv_params :
    (s.changeEnv e).params = { s.params with debug := e.debug s.params.debug } := rfl
@[simp] theorem State.changeEnv_cur : (s.changeEnv e).cur = s.cur := rfl
end

/-- The operation `f` does in `s` with the environment's part changed what it does in `s` without. -/
def Ignores (e : EnvChange) (f : State → StepResult) (s : State) : Prop :=
  f (s.changeEnv e) = mapNext (State.changeEnv e) (f s)

section
variable (e : EnvChange) (s : State)

theorem movePointer_ignores (a : Int) : Ignores e (movePointer a) s := by
  simp only [Ignores, movePointer, State.changeEnv_tape, State.changeEnv_params]
  cases s.tape.resolve s.params.tapeHalfCapacity a <;> rfl

theorem updateCell_ignores (f : Byte → Byte) : Ignores e (updateCell f) s := by
  simp only [Ignores, updateCell, State.changeEnv_cur]
  cases s.cur <;> rfl

theorem openNormal_ignores : Ignores e openNormal s := by
  simp only [Ignores, openNormal, State.changeEnv_cur, State.changeEnv_params, State.changeEnv_ls, State.npc_eq,
    State.changeEnv_pc]
  cases s.cur with
  | none => rfl
  | some v =>
    cases hz : cellIsZero v with
    | true => simp only [hz, if_true]; rfl
    | false =>
      simp only [hz, Bool.false_eq_true, if_false]
      cases pushStack s.params.loopStackCapacity s.ls (s.pc + 1) <;> rfl

theorem closeNormal_ignores : Ignores e closeNormal s := by
  simp only [Ignores, closeNormal, State.changeEnv_cur, State.changeEnv_ls]
  cases topStack s.ls with
  | error c => rfl
  | ok target =>
    cases s.cur with
    | none => rfl
    | some v =>
      cases hz : cellIsZero v with
      | true =>
        simp only [hz, if_true]
        cases popStack s.ls <;> rfl
      | false => simp only [hz, Bool.false_eq_true, if_false]; rfl

/-- `.` reads the output record only to append to it. -/
theorem outNormal_ignores (hout : ∀ v, e.out (s.out ++ [v]) = e.out s.out ++ [v]) : Ignores e outNormal s := by
  simp only [Ignores, outNormal, State.changeEnv_cur]
  cases s.cur with
  | none => rfl
  | some v =>
    have hemit : outputByte (s.changeEnv e) v = (outputByte s v).changeEnv e :=
      congrArg (s.changeEnv e).withOut (hout v).symm
    simp only [hemit]
    rfl

/-- `,` reads the input source only through its next answer. -/
theorem inNormal_ignores (hin : inputNext (e.input s.input) = (inputNext s.input).map (Prod.map id e.input)) :
    Ignores e inNormal s := by
  simp only [Ignores, inNormal, State.changeEnv_input, hin, State.changeEnv_tape, State.changeEnv_addr]
  rcases inputNext s.input with - | ⟨item, q⟩
  · rfl
  · by_cases hc : s.tape.Materialised s.addr ∨ item = .endOfStream
    · simp only [Option.map_some, Prod.map_apply, id_eq, hc, if_true]; rfl
    · simp only [Option.map_some, Prod.map_apply, id_eq, hc, if_false, mapNext]

theorem selectMode_ignores {f g : State → StepResult} (hf : Ignores e f s) (hg : s.skip = 0 → Ignores e g s) :
    Ignores e (fun u => selectMode u f g) s := by
  rcases Nat.eq_zero_or_pos s.skip with hs | hs
  · simp only [Ignores, selectMode_normal hs, selectMode_normal (s := s.changeEnv e) hs]
    exact hg hs
  · simp only [Ignores, selectMode_skip hs, selectMode_skip (s := s.changeEnv e) hs]
    exact hf

/-- An instruction reads nothing of the environment's part but the next answer of the input source, and that only
in a `,` in normal mode. -/
theorem exec_ignores (i : Instr) (hout : ∀ v, e.out (s.out ++ [v]) = e.out s.out ++ [v])
    (hin : s.skip = 0 → i = .inp → inputNext (e.input s.input) = (inputNext s.input).map (Prod.map id e.input)) :
    Ignores e (exec i) s := by
  cases i with
  | right | left => exact selectMode_ignores e s rfl fun _ => movePointer_ignores e s _
  | inc | dec => exact selectMode_ignores e s rfl fun _ => updateCell_ignores e s _
  | out => exact selectMode_ignores e s rfl fun _ => outNormal_ignores e s hout
  | inp => exact selectMode_ignores e s rfl fun hs => inNormal_ignores e s (hin hs rfl)
  | openLoop => exact selectMode_ignores e s rfl fun _ => openNormal_ignores e s
  | closeLoop => exact selectMode_ignores e s rfl fun _ => closeNormal_ignores e s
  | nop b => exact selectMode_ignores e s rfl fun _ => rfl

/-- A step reads nothing of the environment's part but the next answer of the input source, and that only where it
executes a `,` in normal mode. -/
theorem step_ignores (hout : ∀ v, e.out (s.out ++ [v]) = e.out s.out ++ [v])
    (hin : s.skip = 0 → s.Fetching symIn →
      inputNext (e.input s.input) = (inputNext s.input).map (Prod.map id e.input)) :
    Ignores e step s := by
  cases hf : s.fault with
  | some c => rw [Ignores, step_of_fault hf, step_of_fault (s := s.changeEnv e) hf, mapNext]
  | none =>
    by_cases hend : s.pc = s.progLen
    · rw [Ignores, step_of_atEnd hf hend, step_of_atEnd (s := s.changeEnv e) hf hend, mapNext]
    · cases hb : s.params.prog[s.pc]? with
      | none =>
        rw [Ignores, step_of_noProgramByte hf hend hb, step_of_noProgramByte (s := s.changeEnv e) hf hend hb, mapNext]
      | some b =>
        rw [Ignores, step_of_fetching ⟨hf, hb⟩, step_of_fetching (s := s.changeEnv e) ⟨hf, hb⟩]
        exact exec_ignores e s _ hout fun hs hi => hin hs ⟨hf, decodeByte_eq_inp.mp hi ▸ hb⟩

/-- A change of the output record and of `DEBUG` alone: no step reads either. -/
theorem step_ignores_of_input_id (hout : ∀ v, e.out (s.out ++ [v]) = e.out s.out ++ [v]) (hin : e.input = id) :
    Ignores e step s :=
  step_ignores e s hout fun _ _ => by simp [hin]

end

/-- An answer lined up behind another does not change the next answer, and is still lined up after it. -/
theorem inputNext_append {q : InputSource} (hq : q.queue ≠ []) (item : InputItem) :
    inputNext ((EnvChange.delivery item).input q) =
      (inputNext q).map (Prod.map id (EnvChange.delivery item).input) := by
  obtain ⟨first, rest, hqueue⟩ := List.exists_cons_of_ne_nil hq
  simp [inputNext, EnvChange.delivery, hqueue]

/-- Settles O32: earlier output is a change of the environment's part to which every step only appends. -/
theorem outputIsNeverReadBack : Obligations.OutputIsNeverReadBack :=
  fun s earlier =>
    step_ignores_of_input_id (.earlierOutput earlier) s (fun v => (List.append_assoc earlier s.out [v]).symm) rfl

/-- Settles O33: where the step is a `,` in normal mode, the queue is not empty and so its first answer the same. -/
theorem inputIsNeverLookedAhead : Obligations.InputIsNeverLookedAhead :=
  fun s item h => step_ignores (.delivery item) s (fun _ => rfl)
    fun hs hb => inputNext_append (h.resolve_right (not_not_intro ⟨hs, hb⟩)) item

theorem step_withDebug (s : State) (d : Nat) : step (s.withDebug d) = mapNext (fun t => t.withDebug d) (step s) :=
  step_ignores_of_input_id (.debugValue d) s (fun _ => rfl) rfl

theorem Reaches.withDebug {s t : State} (h : Reaches s t) (d : Nat) :
    Reaches (s.withDebug d) (t.withDebug d) := by
  induction h with
  | refl => exact .refl _
  | tail _ hstep ih => exact ih.tail (by rw [step_withDebug, hstep]; rfl)

/-- Settles O34: every step ignores `DEBUG`, so two runs that differ only in it go in lockstep. -/
theorem debugIsUnobservable : Obligations.DebugIsUnobservable :=
  ⟨step_withDebug, fun _ _ d h => ⟨h.withDebug d, rfl, rfl⟩⟩

/-! ### The fault record and reset (10_state.md R28, R37; 70_reset_and_hazards.md R230) -/

/-- Settles O7: a recorded fault is the step's answer, so no run leaves the state. -/
theorem faultIsSticky : Obligations.FaultIsSticky := by
  intro s c h
  refine ⟨step_of_fault h, State.status_of_fault h, fun t hr => ?_, rfl⟩
  refine hr.induction_inv (P := (· = s)) rfl fun u v hu hstep => ?_
  rw [hu, step_of_fault h] at hstep
  cases hstep

/-- Every cell reads 0 after reset (10_state.md R37). -/
theorem reset_tape_value (a : Int) : State.reset.tape.value a = 0 := by
  rw [Memory.value_eq_read reset_tape_wf]
  cases (Memory.locate a).side <;> rfl

theorem State.boot_atEnd_iff (p : Params) (q : InputSource) :
    (State.boot p q).pc = (State.boot p q).progLen ↔ p.prog = [] :=
  eq_comm.trans List.length_eq_zero_iff

/-- The run status after reset: HALTED exactly for the empty program (40_sequencer.md R101). -/
theorem State.boot_status (p : Params) (q : InputSource) :
    (State.boot p q).status = if p.prog = [] then .halted else .running := by
  split
  · exact State.status_of_atEnd rfl ((State.boot_atEnd_iff p q).mpr ‹_›)
  · exact State.status_of_not_atEnd rfl (mt (State.boot_atEnd_iff p q).mp ‹_›)

/-- Settles O44: the reset values, the reset tape as `Resolve(0)`, and the run status by the program. -/
theorem resetState : Obligations.ResetState := by
  intro p q hp
  have hhalted : (State.boot p q).status = .halted ↔ p.prog = [] := by simp [State.boot_status]
  have hrunning : (State.boot p q).status = .running ↔ p.prog ≠ [] := by simp [State.boot_status]
  exact ⟨rfl, rfl, rfl, rfl, rfl, rfl, rfl, reset_tape_value, reset_tape_eq_resolve hp, rfl, rfl, hhalted, hrunning,
    rfl⟩

/-- The pairing invariant holds after reset: no bracket is open at index 0 (44_loop_control.md R155). -/
theorem State.boot_paired (p : Params) (q : InputSource) : (State.boot p q).Paired where
  depth := by
    show bracketDepth p.prog 0 = 0
    simp [bracketDepth]
  entries := fun i e he => by cases he
  scan := fun h => absurd h (Nat.lt_irrefl 0)

/-- Settles O45: the two invariants, each by its parts at the reset values. -/
theorem invariantsHoldAtReset : Obligations.InvariantsHoldAtReset :=
  fun p q hp => ⟨State.boot_inv q hp, State.boot_paired p q⟩

end Sys2Proof.Machine
end

section
/-! PROOFS. What each instruction does by the mode, what a step does to the bytes and the lengths of the tape, and the
statements of 20_memory.md. -/

namespace Sys2Proof.Machine

/-! ### An instruction by the mode (40_sequencer.md R104) -/

/-- The own action of each instruction, the one normal mode selects (40_sequencer.md R104). -/
def normalAction : Instr → State → StepResult
  | .right => rightNormal
  | .left => leftNormal
  | .inc => incNormal
  | .dec => decNormal
  | .out => outNormal
  | .inp => inNormal
  | .openLoop => openNormal
  | .closeLoop => closeNormal
  | .nop b => nopNormal b

theorem exec_of_normal {s : State} (h : s.skip = 0) (i : Instr) : exec i s = normalAction i s := by
  cases i <;> exact selectMode_normal h _ _

theorem exec_of_skip {s : State} (h : 0 < s.skip) (i : Instr) :
    exec i s = .next (s.withSkip (skipAfter i s.skip)).advance := by
  cases i <;> exact selectMode_skip h _ _

theorem decodeByte_eq_inc {b : Byte} : decodeByte b = .inc ↔ b = symInc := by
  revert b; decide

theorem decodeByte_eq_dec {b : Byte} : decodeByte b = .dec ↔ b = symDec := by
  revert b; decide

/-! ### Two machines that differ only in how the tape is stored (20_memory.md R56) -/

namespace SameButTapeStorage

section
variable {s t : State} (h : SameButTapeStorage s t)
include h

theorem pc_eq : t.pc = s.pc := by rw [h.rest]
theorem addr_eq : t.addr = s.addr := by rw [h.rest]
theorem skip_eq : t.skip = s.skip := by rw [h.rest]
theorem ls_eq : t.ls = s.ls := by rw [h.rest]
theorem fault_eq : t.fault = s.fault := by rw [h.rest]
theorem input_eq : t.input = s.input := by rw [h.rest]
theorem params_eq : t.params = s.params := by rw [h.rest]

/-- The current cell is in storage on both sides and holds one byte. -/
theorem cur_eq : s.cur = some (s.tape.value s.addr) ∧ t.cur = some (s.tape.value s.addr) := by
  refine ⟨cur_of_materialised h.currentLeft, ?_⟩
  rw [cur_of_materialised (h.addr_eq ▸ h.currentRight), h.addr_eq, h.bytes]

/-- An update that leaves the tape and `addr` and does not depend on the tape. -/
theorem update {g : State → State} (hg : ∀ u m, g (u.withTape m) = (g u).withTape m)
    (htape : ∀ u, (g u).tape = u.tape) (haddr : ∀ u, (g u).addr = u.addr) : SameButTapeStorage (g s) (g t) where
  rest := by rw [htape t]; exact (congrArg g h.rest).trans (hg s t.tape)
  bytes a := by rw [htape, htape, h.bytes]
  wfLeft := htape s ▸ h.wfLeft
  wfRight := htape t ▸ h.wfRight
  currentLeft := by rw [htape, haddr]; exact h.currentLeft
  currentRight := by rw [htape, haddr]; exact h.currentRight

theorem advance : SameButTapeStorage s.advance t.advance :=
  h.update (fun _ _ => rfl) (fun _ => rfl) (fun _ => rfl)

theorem jump (target : Nat) : SameButTapeStorage (s.jump target) (t.jump target) :=
  h.update (g := (State.jump · target)) (fun _ _ => rfl) (fun _ => rfl) (fun _ => rfl)

theorem withSkip (n : Nat) : SameButTapeStorage (s.withSkip n) (t.withSkip n) :=
  h.update (g := (State.withSkip · n)) (fun _ _ => rfl) (fun _ => rfl) (fun _ => rfl)

theorem withStack (ls : List Nat) : SameButTapeStorage (s.withStack ls) (t.withStack ls) :=
  h.update (g := (State.withStack · ls)) (fun _ _ => rfl) (fun _ => rfl) (fun _ => rfl)

theorem withFault (c : Fault) : SameButTapeStorage (s.withFault c) (t.withFault c) :=
  h.update (g := (State.withFault · c)) (fun _ _ => rfl) (fun _ => rfl) (fun _ => rfl)

theorem withInput (q : InputSource) : SameButTapeStorage (s.withInput q) (t.withInput q) :=
  h.update (g := (State.withInput · q)) (fun _ _ => rfl) (fun _ => rfl) (fun _ => rfl)

theorem emit (v : Byte) : SameButTapeStorage (outputByte s v) (outputByte t v) :=
  h.update (g := (outputByte · v)) (fun _ _ => rfl) (fun _ => rfl) (fun _ => rfl)

/-- A move onto a resolved address: `Resolve` changes no byte and materialises the address. -/
theorem move {m m' : Memory} {cap : TapeCapacity} {a : Int} (hm : s.tape.resolve cap a = .ok m)
    (hm' : t.tape.resolve cap a = .ok m') :
    SameButTapeStorage ((s.withTape m).withAddr a) ((t.withTape m').withAddr a) where
  rest := by rw [h.rest]; rfl
  bytes b := (Memory.value_resolve h.wfRight hm' b).trans
    ((h.bytes b).trans (Memory.value_resolve h.wfLeft hm b).symm)
  wfLeft := Memory.resolve_wf h.wfLeft hm
  wfRight := Memory.resolve_wf h.wfRight hm'
  currentLeft := (Memory.resolve_ok hm).1
  currentRight := (Memory.resolve_ok hm').1

/-- One byte stored to the current cell of both. -/
theorem setCur (v : Byte) : SameButTapeStorage (s.setCur v) (t.setCur v) := by
  have htape : (t.setCur v).tape = t.tape.put s.addr v := by rw [State.setCur_tape, h.addr_eq]
  refine ⟨?_, fun a => ?_, Memory.put_wf h.wfLeft h.currentLeft v, htape ▸ Memory.put_wf h.wfRight h.currentRight v,
    (Memory.put_materialised ..).mpr h.currentLeft, htape ▸ (Memory.put_materialised ..).mpr h.currentRight⟩
  · rw [h.rest]; rfl
  · rw [htape, State.setCur_tape]
    by_cases ha : a = s.addr
    · rw [ha, Memory.value_put_same h.wfRight h.currentRight, Memory.value_put_same h.wfLeft h.currentLeft]
    · rw [Memory.value_put_other _ v ha, Memory.value_put_other _ v ha, h.bytes]

/-! Each action of normal mode answers alike on both. -/

theorem movePointer_answers (hcap : s.params.tapeHalfCapacity = .unbounded) (a : Int) :
    SameAnswer (movePointer a s) (movePointer a t) := by
  obtain ⟨m, hm⟩ := Memory.resolve_unbounded s.tape a
  obtain ⟨m', hm'⟩ := Memory.resolve_unbounded t.tape a
  simp only [movePointer, h.params_eq, hcap, hm, hm']
  exact .next (h.move hm hm').advance

theorem updateCell_answers (f : Byte → Byte) : SameAnswer (updateCell f s) (updateCell f t) := by
  obtain ⟨hs, ht⟩ := h.cur_eq
  simp only [updateCell, hs, ht]
  exact .next (h.setCur _).advance

theorem outNormal_answers : SameAnswer (outNormal s) (outNormal t) := by
  obtain ⟨hs, ht⟩ := h.cur_eq
  simp only [outNormal, hs, ht]
  exact .next (h.emit _).advance

theorem inNormal_answers : SameAnswer (inNormal s) (inNormal t) := by
  simp only [inNormal, h.input_eq, h.addr_eq, h.currentLeft, h.currentRight, true_or, if_true]
  rcases inputNext s.input with - | ⟨b | -, q⟩
  · exact .refused _
  · exact .next ((h.setCur b).withInput q).advance
  · exact .next (h.withInput q).advance

theorem openNormal_answers : SameAnswer (openNormal s) (openNormal t) := by
  obtain ⟨hs, ht⟩ := h.cur_eq
  simp only [openNormal, hs, ht, h.params_eq, h.ls_eq, State.npc_eq, h.pc_eq]
  split
  · exact .next (h.withSkip 1).advance
  · cases pushStack s.params.loopStackCapacity s.ls (s.pc + 1) with
    | error c => exact .next (h.withFault c)
    | ok ls => exact .next (h.withStack ls).advance

theorem closeNormal_answers : SameAnswer (closeNormal s) (closeNormal t) := by
  obtain ⟨hs, ht⟩ := h.cur_eq
  simp only [closeNormal, hs, ht, h.ls_eq]
  cases topStack s.ls with
  | error c => exact .next (h.withFault c)
  | ok target =>
    simp only
    split
    · cases popStack s.ls with
      | error c => exact .next (h.withFault c)
      | ok ls => exact .next (h.withStack ls).advance
    · exact .next (h.jump target)

theorem normalAction_answers (hcap : s.params.tapeHalfCapacity = .unbounded) (i : Instr) :
    SameAnswer (normalAction i s) (normalAction i t) := by
  cases i with
  | right =>
    simp only [normalAction, rightNormal, h.addr_eq]
    exact h.movePointer_answers hcap _
  | left =>
    simp only [normalAction, leftNormal, h.addr_eq]
    exact h.movePointer_answers hcap _
  | inc | dec => exact h.updateCell_answers _
  | out => exact h.outNormal_answers
  | inp => exact h.inNormal_answers
  | openLoop => exact h.openNormal_answers
  | closeLoop => exact h.closeNormal_answers
  | nop b => exact .next h.advance

theorem exec_answers (hcap : s.params.tapeHalfCapacity = .unbounded) (i : Instr) :
    SameAnswer (exec i s) (exec i t) := by
  rcases Nat.eq_zero_or_pos s.skip with hs | hs
  · rw [exec_of_normal hs, exec_of_normal (h.skip_eq.trans hs)]
    exact h.normalAction_answers hcap i
  · rw [exec_of_skip hs, exec_of_skip (h.skip_eq ▸ hs), h.skip_eq]
    exact .next (h.withSkip _).advance

/-- The status test and the fetch read nothing of the tape (40_sequencer.md R101, R102). -/
theorem step_answers (hcap : s.params.tapeHalfCapacity = .unbounded) : SameAnswer (step s) (step t) := by
  simp only [step, fetchBytes, State.progLen, h.fault_eq, h.pc_eq, h.params_eq]
  split
  · exact .fault _
  · split
    · exact .refused _
    · split
      · exact .refused _
      · exact h.exec_answers hcap _

end

end SameButTapeStorage

/-- Settles O51: every action of either mode answers alike, since both machines read one byte at `addr`, resolve every
address and store one byte to the same cell. -/
theorem tapeStorageIsUnobservable : Obligations.TapeStorageIsUnobservable :=
  fun _ _ hcap h => h.step_answers hcap

/-! ### The program (20_memory.md R67) -/

/-- Settles O9: no step writes the parameters, which hold the program. -/
theorem programIsImmutable : Obligations.ProgramIsImmutable :=
  fun _ _ h => ⟨h.params_eq, fun _ => by rw [h.params_eq]⟩

/-! ### The address mapping and `MemWrite` (20_memory.md R51, R53, R57) -/

theorem Memory.memWrite_eq_some {m m' : Memory} {a : Int} {v : Byte} :
    m.memWrite a v = some m' ↔ m.Materialised a ∧ m' = m.put a v := by
  simp [Memory.memWrite, eq_comm]

theorem Memory.materialised_of_memRead {m : Memory} {a : Int} {v : Byte} (h : m.memRead a = some v) :
    m.Materialised a := by
  by_cases hm : m.Materialised a
  · exact hm
  · rw [Memory.memRead_eq, if_neg hm] at h
    cases h

/-- Settles O14: the mapping is onto and one-to-one, so a write to one address misses the cell of every other. -/
theorem addressMappingIsABijection : Obligations.AddressMappingIsABijection := by
  refine ⟨fun a ha => if_pos ha, fun a ha => if_neg (Int.not_le.mpr ha), fun ⟨side, index⟩ => ?_,
    fun m m' a b v hw hne => ?_⟩
  · obtain ⟨a, ha⟩ := locate_surjective side index
    exact ⟨a, ha, fun b hb => locate_injective (hb.trans ha.symm)⟩
  · obtain ⟨-, rfl⟩ := Memory.memWrite_eq_some.mp hw
    exact Memory.memRead_put_other m v hne

/-! ### Growth (20_memory.md R52, R54, R55) -/

/-- To the right of a cell in storage, the first cell not in storage is the one just past the end of the positive half,
and `Resolve` adds that cell alone (41_pointer_moves.md R120, R122). -/
theorem Memory.resolve_right_grows {m m' : Memory} {cap : TapeCapacity} {a : Int} (hw : m.Materialised a)
    (ho : 1 ≤ m.pos.len) (hn : ¬ m.Materialised (a + 1)) (hr : m.resolve cap (a + 1) = .ok m') :
    a + 1 = m.pos.len ∧ m'.pos.len = m.pos.len + 1 ∧ m'.neg.len = m.neg.len := by
  have hnew := (Memory.resolve_ok hr).1
  have hends := Memory.resolve_ends hr
  rw [Memory.materialised_iff] at hw hn hnew
  omega

/-- As `resolve_right_grows`, with the negative half (41_pointer_moves.md R121). -/
theorem Memory.resolve_left_grows {m m' : Memory} {cap : TapeCapacity} {a : Int} (hw : m.Materialised a)
    (ho : 1 ≤ m.pos.len) (hn : ¬ m.Materialised (a - 1)) (hr : m.resolve cap (a - 1) = .ok m') :
    a - 1 = -(m.neg.len : Int) - 1 ∧ m'.neg.len = m.neg.len + 1 ∧ m'.pos.len = m.pos.len := by
  have hnew := (Memory.resolve_ok hr).1
  have hends := Memory.resolve_ends hr
  have ho' := Memory.materialised_zero.mp (Memory.resolve_mono hr (Memory.materialised_zero.mpr ho))
  rw [Memory.materialised_iff] at hw hn hnew
  omega

/-- Settles O19: of what a step can do to the tape, only a move onto a cell not in storage changes a length. -/
theorem tapeGrowsOneCellAtATime : Obligations.TapeGrowsOneCellAtATime := by
  intro s t hi h
  obtain ⟨-, hsame | ⟨v, hput⟩⟩ | ⟨hs, hmove, hr⟩ := step_tape_cases h
  · exact .inl (by simp only [hsame, and_self])
  · exact .inl (by simp only [hput, Memory.put_pos_len, Memory.put_neg_len, and_self])
  by_cases hm : s.tape.Materialised t.addr
  · have hsame : t.tape = s.tape := Except.ok.inj (hr.symm.trans (Memory.resolve_materialised hm))
    exact .inl (by simp only [hsame, and_self])
  have hvalue := Memory.value_resolve hi.tapeWf hr
  obtain ⟨hb, ha⟩ | ⟨hb, ha⟩ := hmove <;> rw [ha] at hm hr ⊢
  · obtain ⟨hend, hpos, hneg⟩ := Memory.resolve_right_grows hi.current hi.origin hm hr
    exact .inr (.inl ⟨hs, hb, hend, hpos, hneg, hvalue⟩)
  · obtain ⟨hend, hneg, hpos⟩ := Memory.resolve_left_grows hi.current hi.origin hm hr
    exact .inr (.inr ⟨hs, hb, hend, hneg, hpos, hvalue⟩)

theorem TapeCapacity.allows_mono {cap : TapeCapacity} {len len' : Nat} (h : TapeCapacity.Allows cap len')
    (hle : len ≤ len') : TapeCapacity.Allows cap len := by
  cases cap with
  | unbounded => exact TapeCapacity.allows_unbounded len
  | cells n => exact Nat.le_trans hle h

theorem TapeCapacity.isFull_eq_false {cap : TapeCapacity} {len : Nat} (h : TapeCapacity.Allows cap (len + 1)) :
    TapeCapacity.isFull cap len = false := by
  cases cap with
  | unbounded => rfl
  | cells n => exact beq_false_of_ne (Nat.ne_of_lt h)

/-- Growth succeeds where the capacity allows the length it leads to (20_memory.md R55). -/
theorem Half.grow_of_allows {cap : TapeCapacity} {n : Nat} {h : Half} (hc : TapeCapacity.Allows cap (h.len + n)) :
    ∃ h', Half.grow cap n h = .ok h' := by
  induction n generalizing h with
  | zero => exact ⟨h, rfl⟩
  | succ n ih =>
    have hfull : TapeCapacity.isFull cap h.len = false :=
      TapeCapacity.isFull_eq_false (TapeCapacity.allows_mono hc (by omega))
    have hnext : TapeCapacity.Allows cap (h.extend.len + n) :=
      TapeCapacity.allows_mono hc (by simp only [Half.extend]; omega)
    simpa only [Half.grow, hfull, Bool.false_eq_true, if_false] using ih hnext

/-- On a tape within its capacity `Resolve(a)` succeeds exactly where the capacity allows a half that reaches `a`. -/
theorem Memory.resolve_succeeds_iff {m : Memory} {cap : TapeCapacity} (a : Int)
    (hc : ∀ side, TapeCapacity.Allows cap (m.half side).len) :
    (∃ m', m.resolve cap a = .ok m') ↔ TapeCapacity.Allows cap ((Memory.locate a).index + 1) := by
  constructor
  · rintro ⟨m', hr⟩
    exact TapeCapacity.allows_mono (Memory.resolve_allows hr hc _) (Memory.resolve_ok hr).1
  · intro ha
    by_cases hm : m.Materialised a
    · exact ⟨m, Memory.resolve_materialised hm⟩
    · have hlen := Nat.add_sub_of_le (Nat.le_succ_of_le (Nat.le_of_not_lt hm))
      obtain ⟨h', hg⟩ := Half.grow_of_allows (h := m.half (Memory.locate a).side) (by rwa [hlen])
      exact ⟨_, by rw [Memory.resolve, Half.resolve, hg]⟩

/-- `Resolve(a)` leaves the half that does not hold `a` (20_memory.md R54). -/
theorem Memory.resolve_other_half {m m' : Memory} {cap : TapeCapacity} {a : Int} (h : m.resolve cap a = .ok m') :
    (0 ≤ a → m'.neg = m.neg) ∧ (a < 0 → m'.pos = m.pos) := by
  obtain ⟨-, hother, -, -⟩ := Memory.resolve_ok h
  refine ⟨fun ha => hother .negative ?_, fun ha => hother .positive ?_⟩
  · simp [Memory.locate, ha]
  · simp [Memory.locate, Int.not_le.mpr ha]

/-- Settles O20: what a success gives, when there is one, and the only failure. -/
theorem resolveMaterialisesAndKeepsValues : Obligations.ResolveMaterialisesAndKeepsValues := by
  intro m cap a hw hpos hneg
  have hc : ∀ side, TapeCapacity.Allows cap (m.half side).len := by
    intro side
    cases side
    · exact hpos
    · exact hneg
  refine ⟨fun m' hr => ?_, Memory.resolve_succeeds_iff a hc, fun _ => Memory.resolve_error⟩
  have hm := (Memory.resolve_ok hr).1
  exact ⟨Memory.resolve_wf hw hr, hm, Memory.value_resolve hw hr, Memory.resolve_materialised hm,
    Memory.resolve_other_half hr⟩

/-! ### Persistence (20_memory.md R53) -/

theorem Memory.memRead_put_cases (m : Memory) (a b : Int) (v : Byte) :
    (m.put a v).memRead b = m.memRead b ∨ b = a := by
  by_cases h : b = a
  · exact .inr h
  · exact .inl (Memory.memRead_put_other m v h)

/-- In normal mode a cell in storage reads as before, but for the current cell in the three instructions that store. -/
theorem NormalEffect.memRead_cases {i : Instr} {s t : State} {b : Int} (h : NormalEffect i s t)
    (hb : s.tape.Materialised b) :
    t.tape.memRead b = s.tape.memRead b ∨ (b = s.addr ∧ (i = .inc ∨ i = .dec ∨ i = .inp)) := by
  cases h with
  | moved _ hr => exact .inl (Memory.memRead_resolve hr hb)
  | counted hi =>
    refine (Memory.memRead_put_cases s.tape s.addr b _).imp_right fun ha => ⟨ha, ?_⟩
    exact hi.imp And.left fun h => .inl h.1
  | received => exact (Memory.memRead_put_cases s.tape s.addr b _).imp_right fun ha => ⟨ha, .inr (.inr rfl)⟩
  | exhausted | emitted | ended | skipped | entered | overflowed | underflowed | repeated | left | passed =>
    exact .inl rfl

/-- The same of a step, with the byte the storing instruction fetched. -/
theorem step_memRead_cases {s t : State} {b : Int} (h : step s = .next t) (hb : s.tape.Materialised b) :
    t.tape.memRead b = s.tape.memRead b ∨
      (b = s.addr ∧ s.skip = 0 ∧ (s.Fetching symInc ∨ s.Fetching symDec ∨ s.Fetching symIn)) := by
  obtain ⟨x, hx, ⟨-, rfl⟩ | ⟨hs, he⟩⟩ := step_next_cases h
  · exact .inl rfl
  · refine (he.memRead_cases hb).imp_right fun ⟨ha, hi⟩ => ⟨ha, hs, ?_⟩
    exact hi.imp (fun hi => decodeByte_eq_inc.mp hi ▸ hx)
      (Or.imp (fun hi => decodeByte_eq_dec.mp hi ▸ hx) fun hi => decodeByte_eq_inp.mp hi ▸ hx)

/-- Settles O21: a write is read back, growth keeps every cell in storage, and a step stores to the current cell
only, in `+`, `-` and `,`. -/
theorem writtenBytePersists : Obligations.WrittenBytePersists := by
  refine ⟨fun m m' a v hw hput => ?_, fun m m' cap a b v hv hr => ?_, fun s t b v hv h => ?_⟩
  · obtain ⟨ha, rfl⟩ := Memory.memWrite_eq_some.mp hput
    exact ⟨Memory.put_wf hw ha v, Memory.memRead_put_same hw ha v⟩
  · rw [Memory.memRead_resolve hr (Memory.materialised_of_memRead hv), hv]
  · exact (step_memRead_cases h (Memory.materialised_of_memRead hv)).imp_left fun hsame => hsame.trans hv

/-! ### `TapeExhausted` and an unbounded tape (20_memory.md R55, 60_exceptions.md R193) -/

/-- With an unbounded capacity no action records `TapeExhausted`: `Resolve` always succeeds. -/
theorem NormalEffect.fault_ne_tapeExhausted {i : Instr} {s t : State} (h : NormalEffect i s t)
    (hcap : s.params.tapeHalfCapacity = .unbounded) (hs : s.fault ≠ some .tapeExhausted) :
    t.fault ≠ some .tapeExhausted := by
  cases h with
  | exhausted _ hr =>
    obtain ⟨m, hm⟩ := Memory.resolve_unbounded s.tape _
    rw [hcap, hm] at hr
    cases hr
  | overflowed | underflowed => simp
  | moved | counted | emitted | received | ended | skipped | entered | repeated | left | passed => exact hs

theorem step_fault_ne_tapeExhausted {s t : State} (hcap : s.params.tapeHalfCapacity = .unbounded)
    (h : step s = .next t) : t.fault ≠ some .tapeExhausted := by
  obtain ⟨b, ⟨hnone, -⟩, hcase⟩ := step_next_cases h
  have hs : s.fault ≠ some .tapeExhausted := by simp [hnone]
  obtain ⟨-, rfl⟩ | ⟨-, he⟩ := hcase
  · exact hs
  · exact he.fault_ne_tapeExhausted hcap hs

/-- Settles O22: the last step of a run starts with the same unbounded capacity. -/
theorem unboundedTapeNeverExhausted : Obligations.UnboundedTapeNeverExhausted := by
  intro s t hcap hfault hr
  cases hr with
  | refl => exact hfault
  | tail hr hstep => exact step_fault_ne_tapeExhausted (hr.params_eq ▸ hcap) hstep

/-! ### Cell accesses (20_memory.md R57, R58) -/

/-- With the current cell in storage every action of normal mode answers a next state, but for a `,` without an
answer (43_byte_io.md R144). -/
theorem normalAction_completes {s : State} (hm : s.tape.Materialised s.addr) (i : Instr) :
    (∃ t, normalAction i s = .next t) ∨
      (i = .inp ∧ inputNext s.input = none ∧ normalAction i s = .refused .waitingForInput) := by
  cases i with
  | right | left => exact .inl ((movePointer_cases _ s).elim (fun ⟨_, _, he⟩ => ⟨_, he⟩) fun ⟨_, he⟩ => ⟨_, he⟩)
  | inc | dec => exact .inl ((updateCell_cases _ s).elim (fun ⟨_, he⟩ => ⟨_, he⟩) fun ⟨hn, _⟩ => absurd hm hn)
  | out => exact .inl ((outNormal_cases s).elim (fun ⟨_, he⟩ => ⟨_, he⟩) fun ⟨hn, _⟩ => absurd hm hn)
  | inp =>
    obtain ⟨_, _, _, _, he⟩ | ⟨_, _, he⟩ | ⟨hnone, he⟩ | ⟨_, _, _, hn, _⟩ := inNormal_cases s
    · exact .inl ⟨_, he⟩
    · exact .inl ⟨_, he⟩
    · exact .inr ⟨rfl, hnone, he⟩
    · exact absurd hm hn
  | openLoop =>
    obtain ⟨_, _, he⟩ | ⟨_, _, _, he⟩ | ⟨_, _, _, he⟩ | ⟨hn, _⟩ := openNormal_cases s
    · exact .inl ⟨_, he⟩
    · exact .inl ⟨_, he⟩
    · exact .inl ⟨_, he⟩
    · exact absurd hm hn
  | closeLoop =>
    obtain ⟨_, he⟩ | ⟨_, _, _, _, _, he⟩ | ⟨_, _, _, _, _, he⟩ | ⟨_, hn, _⟩ := closeNormal_cases s
    · exact .inl ⟨_, he⟩
    · exact .inl ⟨_, he⟩
    · exact .inl ⟨_, he⟩
    · exact absurd hm hn
  | nop b => exact .inl ⟨_, rfl⟩

/-- Under status RUNNING and the bound of `pc` there is a byte to fetch (40_sequencer.md R101, R112). -/
theorem State.exists_fetching {s : State} (hpc : s.pc ≤ s.progLen) (h : s.status = .running) : ∃ b, s.Fetching b := by
  cases hf : s.fault with
  | some c => rw [State.status_of_fault hf] at h; cases h
  | none =>
    have hne : s.pc ≠ s.progLen := fun hend => by rw [State.status_of_atEnd hf hend] at h; cases h
    exact ⟨_, hf, List.getElem?_eq_getElem (Nat.lt_of_le_of_ne hpc hne)⟩

/-- Settles O50: there is a byte to fetch, skip mode always completes, and normal mode finds the current cell in
storage. -/
theorem runningStepAlwaysCompletes : Obligations.RunningStepAlwaysCompletes := by
  intro s hi hrun
  obtain ⟨b, hb⟩ := State.exists_fetching hi.pcBound hrun
  rw [step_of_fetching hb]
  rcases Nat.eq_zero_or_pos s.skip with hs | hs
  · rw [exec_of_normal hs]
    refine (normalAction_completes hi.current (decodeByte b)).imp_right fun ⟨hinp, hnone, he⟩ => ?_
    have hin : s.Fetching symIn := decodeByte_eq_inp.mp hinp ▸ hb
    exact ⟨he, hin, hs, inputNext_none.mp hnone⟩
  · exact .inl ⟨_, exec_of_skip hs _⟩

section
variable {s : State} (hn : ¬ s.tape.Materialised s.addr)
include hn

theorem updateCell_refuses (f : Byte → Byte) : updateCell f s = .refused .unmaterialisedCell :=
  ((updateCell_cases f s).resolve_left fun h => hn h.1).2

theorem outNormal_refuses : outNormal s = .refused .unmaterialisedCell :=
  ((outNormal_cases s).resolve_left fun h => hn h.1).2

theorem openNormal_refuses : openNormal s = .refused .unmaterialisedCell := by
  obtain ⟨hm, -⟩ | ⟨hm, -⟩ | ⟨hm, -⟩ | ⟨-, he⟩ := openNormal_cases s
  · exact absurd hm hn
  · exact absurd hm hn
  · exact absurd hm hn
  · exact he

/-- `]` accesses the cell only after its emptiness test (44_loop_control.md R154). -/
theorem closeNormal_refuses (hls : s.ls ≠ []) : closeNormal s = .refused .unmaterialisedCell := by
  obtain ⟨he, -⟩ | ⟨_, _, -, hm, -⟩ | ⟨_, _, -, hm, -⟩ | ⟨-, -, he⟩ := closeNormal_cases s
  · exact absurd he hls
  · exact absurd hm hn
  · exact absurd hm hn
  · exact he

/-- `,` accesses the cell only to store a byte (20_memory.md R58). -/
theorem inNormal_refuses {b : Byte} {q : InputSource} (hb : inputNext s.input = some (.byte b, q)) :
    inNormal s = .refused .unmaterialisedCell := by
  simp [inNormal, hb, hn]

end

/-- Settles O43: each action of normal mode that reads or stores to the current cell refuses. -/
theorem unmaterialisedCellIsRefused : Obligations.UnmaterialisedCellIsRefused := by
  intro s hs hn
  simp only [exec_of_normal hs]
  refine ⟨?_, closeNormal_refuses hn, fun _ _ => inNormal_refuses hn⟩
  rintro i (rfl | rfl | rfl | rfl)
  · exact updateCell_refuses hn cellInc
  · exact updateCell_refuses hn cellDec
  · exact outNormal_refuses hn
  · exact openNormal_refuses hn

end Sys2Proof.Machine
end

section
/-! PROOFS. The decoder and the encoder agree on every row of the table and on every `NOP`, program texts, and the
statements of 30_encoding.md. -/

namespace Sys2Proof

/-! ### One byte (30_encoding.md R81, R83, R85) -/

/-- Each row of the table: its byte and its instruction stand for each other. -/
theorem opcodeTable_row : ∀ row ∈ opcodeTable,
    decodeByte row.1 = row.2 ∧ encodeByte row.2 = row.1 ∧ row.2.wf = true := by
  decide

theorem decode_of_mem_table {b : Byte} {i : Instr} (h : (b, i) ∈ opcodeTable) (rest : List Byte) :
    decode (b :: rest) = .ok (i, rest) := by
  rw [decode_cons, (opcodeTable_row _ h).1]

theorem decode_of_not_mem {b : Byte} (h : b ∉ alphabet) (rest : List Byte) :
    decode (b :: rest) = .ok (.nop b, rest) := by
  rw [decode_cons, decodeByte_of_not_mem h]

theorem decodeByte_encodeByte {i : Instr} (h : i.wf = true) : decodeByte (encodeByte i) = i := by
  cases i with
  | nop b => exact decodeByte_of_not_mem (Instr.wf_nop.mp h)
  | right | left | inc | dec | out | inp | openLoop | closeLoop => rfl

/-- A byte is in the table, where its row says what it decodes to, or it is its own `NOP` (30_encoding.md R86). -/
theorem encodeByte_decodeByte_and_wf (b : Byte) : encodeByte (decodeByte b) = b ∧ (decodeByte b).wf = true := by
  by_cases h : b ∈ alphabet
  · obtain ⟨row, hrow, rfl⟩ := List.mem_map.mp h
    obtain ⟨hdec, henc⟩ := opcodeTable_row row hrow
    exact hdec ▸ henc
  · rw [decodeByte_of_not_mem h]
    exact ⟨rfl, Instr.wf_nop.mpr h⟩

/-! ### Program texts (30_encoding.md R80, R89) -/

theorem assemble_cons (i : Instr) (is : List Instr) : assemble (i :: is) = encodeByte i :: assemble is := rfl

theorem disassemble_cons (b : Byte) (bytes : List Byte) :
    disassemble (b :: bytes) = decodeByte b :: disassemble bytes := rfl

theorem disassemble_assemble {is : List Instr} (h : ∀ i ∈ is, i.wf = true) : disassemble (assemble is) = is := by
  induction is with
  | nil => rfl
  | cons i is ih =>
    obtain ⟨hi, his⟩ := List.forall_mem_cons.mp h
    rw [assemble_cons, disassemble_cons, decodeByte_encodeByte hi, ih his]

theorem assemble_disassemble (bytes : List Byte) : assemble (disassemble bytes) = bytes := by
  induction bytes with
  | nil => rfl
  | cons b bytes ih => rw [disassemble_cons, assemble_cons, (encodeByte_decodeByte_and_wf b).1, ih]

theorem wf_of_mem_disassemble {bytes : List Byte} {i : Instr} (h : i ∈ disassemble bytes) : i.wf = true := by
  obtain ⟨b, -, rfl⟩ := List.mem_map.mp h
  exact (encodeByte_decodeByte_and_wf b).2

/-- Settles O3: one induction on the list for each direction, a byte at a time. -/
theorem programTextRoundTrip : Obligations.ProgramTextRoundTrip :=
  ⟨fun _ => disassemble_assemble, fun bytes => ⟨assemble_disassemble bytes, fun _ => wf_of_mem_disassemble⟩⟩

/-- Settles O2: an instruction is one byte, so what follows it is the rest. -/
theorem decodeOfEncode : Obligations.DecodeOfEncode := by
  intro i rest h
  calc decode (encode i ++ rest) = .ok (decodeByte (encodeByte i), rest) := decode_cons _ _
    _ = .ok (i, rest) := by rw [decodeByte_encodeByte h]

/-- Settles O1: eight rows of the table, and four bytes that no row holds. -/
theorem writtenOutWordsDecode : Obligations.WrittenOutWordsDecode := by
  refine ⟨?_, ?_, ?_, ?_, ?_, ?_, ?_, ?_, decode_of_not_mem ?_ _, decode_of_not_mem ?_ _, decode_of_not_mem ?_ _,
    decode_of_not_mem ?_ _⟩
  iterate 8 exact decode_of_mem_table (by decide) _
  all_goals decide

end Sys2Proof

namespace Sys2Proof.Machine

/-- `NOP` has the same effect in both modes: `pc <- npc` (45_skip_mode_nop.md R173, R178). -/
theorem exec_nop (b : Byte) (s : State) : exec (.nop b) s = .next s.advance := by
  rcases Nat.eq_zero_or_pos s.skip with hnormal | hskip
  · exact exec_of_normal hnormal _
  · exact exec_of_skip hskip _

/-- Settles O4: a byte outside the alphabet decodes to `NOP`, which in both modes only advances `pc`. -/
theorem otherBytesAreNopInBothModes : Obligations.OtherBytesAreNopInBothModes := by
  intro b hb
  have hdec : decodeByte b = .nop b := decodeByte_of_not_mem (alphabet_eq ▸ hb)
  refine ⟨hdec, exec_nop b, fun s hfetch => ?_⟩
  rw [step_of_fetching hfetch, hdec]
  exact exec_nop b s

end Sys2Proof.Machine
end

section
/-! PROOFS. The fetch, the halt and the wait of `,`: the statements of 40_sequencer.md. -/

namespace Sys2Proof.Machine

/-! ### Halting (40_sequencer.md R101) -/

/-- An instruction never stops the machine by itself: it answers a next state, or it is a `,` without an answer
(43_byte_io.md R144), or it accesses a cell that is not in storage (20_memory.md R57). -/
theorem exec_completes_or_refuses (i : Instr) (s : State) :
    (∃ t, exec i s = .next t) ∨ exec i s = .refused .waitingForInput ∨ exec i s = .refused .unmaterialisedCell := by
  rcases Nat.eq_zero_or_pos s.skip with hs | hs
  · rw [exec_of_normal hs]
    by_cases hm : s.tape.Materialised s.addr
    · exact (normalAction_completes hm i).imp_right fun ⟨_, _, he⟩ => .inl he
    · cases i with
      | right | left =>
        exact .inl ((movePointer_cases _ s).elim (fun ⟨_, _, he⟩ => ⟨_, he⟩) fun ⟨_, he⟩ => ⟨_, he⟩)
      | inc | dec => exact .inr (.inr (updateCell_refuses hm _))
      | out => exact .inr (.inr (outNormal_refuses hm))
      | inp =>
        obtain ⟨_, _, _, _, he⟩ | ⟨_, _, he⟩ | ⟨_, he⟩ | ⟨_, _, _, _, he⟩ := inNormal_cases s
        · exact .inl ⟨_, he⟩
        · exact .inl ⟨_, he⟩
        · exact .inr (.inl he)
        · exact .inr (.inr he)
      | openLoop => exact .inr (.inr (openNormal_refuses hm))
      | closeLoop =>
        obtain ⟨_, he⟩ | ⟨_, _, _, _, _, he⟩ | ⟨_, _, _, _, _, he⟩ | ⟨_, _, he⟩ := closeNormal_cases s
        · exact .inl ⟨_, he⟩
        · exact .inl ⟨_, he⟩
        · exact .inl ⟨_, he⟩
        · exact .inr (.inr he)
      | nop b => exact .inl ⟨_, rfl⟩
  · exact .inl ⟨_, exec_of_skip hs i⟩

theorem exec_ne_halted (i : Instr) (s : State) : exec i s ≠ .refused .halted := by
  obtain ⟨t, he⟩ | he | he := exec_completes_or_refuses i s <;> rw [he] <;> nofun

theorem step_ne_halted {s : State} (hf : s.fault = none) (hpc : s.pc ≠ s.progLen) : step s ≠ .refused .halted := by
  cases hb : s.params.prog[s.pc]? with
  | none => rw [step_of_noProgramByte hf hpc hb]; nofun
  | some b => rw [step_of_fetching ⟨hf, hb⟩]; exact exec_ne_halted _ s

/-- Settles O6: at the program's end both answers are HALTED; elsewhere the step refuses for want of a byte or is an
instruction's, and the status is RUNNING. -/
theorem haltsExactlyAtProgramEnd : Obligations.HaltsExactlyAtProgramEnd := by
  intro s hf
  by_cases hpc : s.pc = s.progLen
  · exact ⟨iff_of_true (step_of_atEnd hf hpc) hpc, iff_of_true (State.status_of_atEnd hf hpc) hpc⟩
  · exact ⟨iff_of_false (step_ne_halted hf hpc) hpc,
      iff_of_false (by rw [State.status_of_not_atEnd hf hpc]; nofun) hpc⟩

/-! ### The wait of `,` (40_sequencer.md R109, 43_byte_io.md R144) -/

/-- What a `,` does with the current cell in storage: skip mode passes it, an answer is received, and without an
answer it waits. -/
theorem step_in_cases {s : State} (hm : s.tape.Materialised s.addr) (hf : s.Fetching symIn) :
    (0 < s.skip ∧ step s = .next s.advance) ∨
      (s.skip = 0 ∧ ∃ item q, inputNext s.input = some (item, q) ∧
        step s = .next ((s.receive item).withInput q).advance) ∨
      (s.skip = 0 ∧ inputNext s.input = none ∧ step s = .refused .waitingForInput) := by
  rw [step_of_fetching hf, decodeByte_eq_inp.mpr rfl]
  rcases Nat.eq_zero_or_pos s.skip with hs | hs
  · rw [exec_of_normal hs]
    obtain ⟨b, q, hn, -, he⟩ | ⟨q, hn, he⟩ | ⟨hn, he⟩ | ⟨_, _, _, hnot, _⟩ := inNormal_cases s
    · exact .inr (.inl ⟨hs, .byte b, q, hn, he⟩)
    · exact .inr (.inl ⟨hs, .endOfStream, q, hn, he⟩)
    · exact .inr (.inr ⟨hs, hn, he⟩)
    · exact absurd hm hnot
  · exact .inl ⟨hs, exec_of_skip hs _⟩

theorem step_in_waits_iff {s : State} (hm : s.tape.Materialised s.addr) (hf : s.Fetching symIn) :
    step s = .refused .waitingForInput ↔ s.skip = 0 ∧ inputNext s.input = none := by
  obtain ⟨hs, he⟩ | ⟨_, item, q, hn, he⟩ | ⟨hs, hn, he⟩ := step_in_cases hm hf
  · exact iff_of_false (by rw [he]; nofun) fun h => Nat.ne_of_gt hs h.1
  · exact iff_of_false (by rw [he]; nofun) fun h => by rw [hn] at h; cases h.2
  · exact iff_of_true he ⟨hs, hn⟩

/-- After a delivery the source has an answer, whatever it does with further requests (60_exceptions.md R206). -/
theorem inputNext_deliver_ne_none (s : State) (item : InputItem) : inputNext (s.deliver item).input ≠ none := by
  simp [inputNext_none, State.deliver]

theorem inputNext_deliver_of_empty {s : State} (hq : s.input.queue = []) (item : InputItem) :
    inputNext (s.deliver item).input = some (item, { s.input with queue := [], asked := s.input.asked + 1 }) := by
  simp [inputNext, State.deliver, hq]

/-- Settles O30: the wait is the one case of `,` without an answer, a delivery rules it out, and the answer delivered
to an empty queue is the one received. -/
theorem inWaitsUntilAnswered : Obligations.InWaitsUntilAnswered := by
  intro s hw hm hf
  refine ⟨by rw [step_in_waits_iff hm hf, inputNext_none], fun item => ?_, fun hwait item t ht => ?_⟩
  · obtain ⟨-, he⟩ | ⟨-, _, _, -, he⟩ | ⟨-, hn, -⟩ := step_in_cases (s := s.deliver item) hm hf
    · exact ⟨_, he⟩
    · exact ⟨_, he⟩
    · exact absurd hn (inputNext_deliver_ne_none s item)
  · obtain ⟨hs, hnone⟩ := (step_in_waits_iff hm hf).mp hwait
    have hnext := inputNext_deliver_of_empty (inputNext_none.mp hnone).1 item
    obtain ⟨hskip, -⟩ | ⟨-, _, _, hn, he⟩ | ⟨-, hn, -⟩ := step_in_cases (s := s.deliver item) hm hf
    · exact absurd hs (Nat.ne_of_gt hskip)
    · cases hnext.symm.trans hn
      cases he.symm.trans ht
      refine ⟨rfl, rfl, ?_⟩
      cases item with
      | byte b => exact Memory.value_put_same hw hm b
      | endOfStream => rfl
    · exact absurd hn (inputNext_deliver_ne_none s item)

/-! ### The fetch (40_sequencer.md R100, R102) -/

theorem step_of_decode {s : State} {i : Instr} {rest : List Byte} (hf : s.fault = none) (hpc : s.pc ≠ s.progLen)
    (hd : decode (fetchBytes s) = .ok (i, rest)) : step s = exec i s := by
  simp only [step, hf, if_neg hpc, hd]

theorem fetchBytes_of_fetching {s : State} {b : Byte} (h : s.Fetching b) : fetchBytes s = [b] := by
  simp only [fetchBytes, progRead, h.2, Option.toList_some]

/-- Settles O5: past the status test the step is the decoded instruction, and the fetch reads the one byte at `pc`. -/
theorem stepRunsTheDecodedInstruction : Obligations.StepRunsTheDecodedInstruction := by
  refine ⟨fun s i rest => step_of_decode, fun s b h => ⟨?_, step_of_fetching h⟩⟩
  rw [fetchBytes_of_fetching h, decode_cons]

end Sys2Proof.Machine
end

section
/-! PROOFS. What `>` and `<` do onto a cell in storage and onto the cell just past the end of a half, and the statements
of 41_pointer_moves.md. -/

namespace Sys2Proof.Machine

/-! ### `Resolve` of the address just past the end of a half (20_memory.md R52, R55) -/

theorem TapeCapacity.isFull_iff {cap : TapeCapacity} {len : Nat} :
    TapeCapacity.isFull cap len = true ↔ cap = .cells len := by
  cases cap with
  | unbounded => exact iff_of_false nofun nofun
  | cells n => rw [TapeCapacity.isFull, beq_iff_eq, TapeCapacity.cells.injEq, eq_comm]

section
variable {m m' : Memory} {cap : TapeCapacity} {a b : Int} {side : Side}
  (hend : Memory.locate a = ⟨side, (m.half side).len⟩)
include hend

theorem Memory.not_materialised_end : ¬ m.Materialised a := by
  simp only [Memory.Materialised, hend, Nat.lt_irrefl, not_false_eq_true]

theorem Memory.resolve_end : m.resolve cap a =
    if cap = .cells (m.half side).len then .error .tapeExhausted else .ok (m.setHalf side (m.half side).extend) := by
  rw [Memory.resolve_next (by rw [hend]), hend]
  simp only [TapeCapacity.isFull_iff]

/-- The one cell `Resolve` adds at the end of a half is the cell of the resolved address. -/
theorem Memory.resolve_end_materialised (hr : m.resolve cap a = .ok m') (hb : b ≠ a) :
    m'.Materialised b ↔ m.Materialised b := by
  obtain ⟨-, hother, hlen, -⟩ := Memory.resolve_ok hr
  by_cases hside : (Memory.locate b).side = (Memory.locate a).side
  · have hne := locate_index_ne hb hside
    simp only [Memory.Materialised, hside, hlen]
    simp only [hend] at hne ⊢
    omega
  · simp only [Memory.Materialised, hother _ hside]

/-- The new cell holds 0 (20_memory.md R54). -/
theorem Memory.resolve_end_memRead_new (hw : m.wf) (hr : m.resolve cap a = .ok m') : m'.memRead a = some 0 := by
  rw [Memory.memRead_of_materialised (Memory.resolve_ok hr).1, Memory.value_resolve hw hr,
    Memory.value_of_not_materialised (Memory.not_materialised_end hend)]
  rfl

theorem Memory.resolve_end_memRead_other (hw : m.wf) (hr : m.resolve cap a = .ok m') (hb : b ≠ a) :
    m'.memRead b = m.memRead b := by
  simp only [Memory.memRead_eq, Memory.resolve_end_materialised hend hr hb, Memory.value_resolve hw hr]

end

/-! ### A move by where its new address is (41_pointer_moves.md R120, R121) -/

/-- Onto a cell in storage nothing grows. -/
theorem movePointer_of_materialised {s : State} {a : Int} (h : s.tape.Materialised a) :
    movePointer a s = .next (s.withAddr a).advance := by
  rw [movePointer, Memory.resolve_materialised h]
  rfl

section
variable {s : State} {a : Int} {side : Side} (hend : Memory.locate a = ⟨side, (s.tape.half side).len⟩)
include hend

/-- Onto the cell just past the end of a full half. -/
theorem movePointer_of_full (hfull : s.params.tapeHalfCapacity = .cells (s.tape.half side).len) :
    movePointer a s = .next (s.withFault .tapeExhausted) := by
  rw [movePointer, Memory.resolve_end hend, if_pos hfull]
  rfl

/-- Onto the cell just past the end of a half that may grow: that half gets this one cell, which holds 0. -/
theorem movePointer_grows (hw : s.tape.wf) (hfull : s.params.tapeHalfCapacity ≠ .cells (s.tape.half side).len) :
    ∃ m : Memory, movePointer a s = .next ((s.withTape m).withAddr a).advance ∧
      (m.half side).len = (s.tape.half side).len + 1 ∧ (∀ other, other ≠ side → m.half other = s.tape.half other) ∧
      m.memRead a = some 0 ∧ ∀ b, b ≠ a → m.memRead b = s.tape.memRead b := by
  have hr := (Memory.resolve_end hend).trans (if_neg hfull)
  refine ⟨s.tape.setHalf side (s.tape.half side).extend, by rw [movePointer, hr], ?_,
    fun other hne => half_setHalf_other _ _ hne, Memory.resolve_end_memRead_new hend hw hr,
    fun b hb => Memory.resolve_end_memRead_other hend hw hr hb⟩
  rw [half_setHalf_same]
  rfl

end

/-- Settles O15: the new address is in storage or just past the end of the positive half, which is full or grows. -/
theorem rightMovesAndGrows : Obligations.RightMovesAndGrows := by
  refine ⟨decodeByte_eq_right.mpr rfl, fun s hi hs => ?_⟩
  rw [exec_of_normal hs]
  refine ⟨movePointer_of_materialised, fun hn => ?_⟩
  have hend := Memory.next_right hi.current hn hi.origin
  refine ⟨locate_injective (hend.trans (locate_ofNat _).symm), movePointer_of_full hend, fun hfull => ?_⟩
  obtain ⟨m, he, hlen, hother, hnew, hkept⟩ := movePointer_grows hend hi.tapeWf hfull
  exact ⟨m, he, hlen, hother .negative (by decide), hnew, hkept⟩

/-- Settles O16: as for `>`, with the negative half. -/
theorem leftMovesAndGrows : Obligations.LeftMovesAndGrows := by
  refine ⟨decodeByte_eq_left.mpr rfl, fun s hi hs => ?_⟩
  rw [exec_of_normal hs]
  refine ⟨movePointer_of_materialised, fun hn => ?_⟩
  have hend := Memory.next_left hi.current hn
  refine ⟨locate_injective (hend.trans (locate_negSucc _).symm), movePointer_of_full hend, fun hfull => ?_⟩
  obtain ⟨m, he, hlen, hother, hnew, hkept⟩ := movePointer_grows hend hi.tapeWf hfull
  exact ⟨m, he, hlen, hother .positive (by decide), hnew, hkept⟩

/-! ### The frame of the two moves (41_pointer_moves.md R122) -/

/-- A move passes in skip mode, moves onto an address it has resolved, or faults. -/
theorem exec_move_cases {i : Instr} {s t : State} (hi : i = .right ∨ i = .left) (h : exec i s = .next t) :
    t = s.advance ∨
      (∃ m a, s.tape.resolve s.params.tapeHalfCapacity a = .ok m ∧ t = ((s.withTape m).withAddr a).advance) ∨
      t = s.withFault .tapeExhausted := by
  rcases Nat.eq_zero_or_pos s.skip with hs | hs
  · have hmove : ∃ a, exec i s = movePointer a s := by
      rw [exec_of_normal hs]
      rcases hi with rfl | rfl <;> exact ⟨_, rfl⟩
    obtain ⟨a, ha⟩ := hmove
    obtain ⟨m, hr, he⟩ | ⟨-, he⟩ := movePointer_cases a s <;> cases h.symm.trans (ha.trans he)
    · exact .inr (.inl ⟨m, a, hr, rfl⟩)
    · exact .inr (.inr rfl)
  · have hskip : skipAfter i s.skip = s.skip := by rcases hi with rfl | rfl <;> rfl
    rw [exec_of_skip hs, hskip] at h
    cases h
    exact .inl rfl

/-- Settles O17: the tape changes only by `Resolve`, which keeps every cell in storage. -/
theorem movesFrame : Obligations.MovesFrame := by
  intro i s t hi h
  obtain rfl | ⟨m, a, hr, rfl⟩ | rfl := exec_move_cases hi h
  · exact ⟨rfl, rfl, rfl, rfl, rfl, fun _ _ => rfl, .inl rfl⟩
  · exact ⟨rfl, rfl, rfl, rfl, rfl, fun _ => Memory.memRead_resolve hr, .inl rfl⟩
  · exact ⟨rfl, rfl, rfl, rfl, rfl, fun _ _ => rfl, .inr rfl⟩

end Sys2Proof.Machine
end

section
/-! PROOFS. A canonical tape is determined by what it reads as, writes to the current cell, and the statements of
42_cell_arithmetic.md. -/

namespace Sys2Proof.Machine

/-! ### A canonical tape is determined by its bytes (92_eei_decisions.md D20) -/

/-- In canonical form the listed pairs are the cells that do not read 0. -/
theorem mem_cells_iff {cells : List Host.Cell} (hs : cells.Pairwise (fun a b => a.1 < b.1))
    (hz : ∀ c ∈ cells, c.2 ≠ Memory.unlisted) (c : Host.Cell) :
    c ∈ cells ↔ readCells cells c.1 = c.2 ∧ c.2 ≠ Memory.unlisted := by
  induction cells with
  | nil => exact iff_of_false List.not_mem_nil fun h => h.2 h.1.symm
  | cons d rest ih =>
    obtain ⟨hd, hrest⟩ := List.pairwise_cons.mp hs
    obtain ⟨hzd, hzrest⟩ := List.forall_mem_cons.mp hz
    have hkey : c ∈ rest → c.1 ≠ d.1 := fun hc => Nat.ne_of_gt (hd c hc)
    rw [List.mem_cons, readCells]
    by_cases hcd : c.1 = d.1
    · rw [if_pos hcd, or_iff_left fun hc => hkey hc hcd]
      exact ⟨fun h => by rw [h]; exact ⟨rfl, hzd⟩, fun h => Prod.ext hcd h.1.symm⟩
    · rw [if_neg hcd, or_iff_right fun h => hcd (congrArg Prod.fst h)]
      exact ih hrest hzrest

theorem nodup_of_rising {cells : List Host.Cell} (hs : cells.Pairwise (fun a b => a.1 < b.1)) : cells.Nodup :=
  hs.imp fun hlt heq => Nat.ne_of_lt hlt (congrArg Prod.fst heq)

/-- The order makes the list of pairs unique. -/
theorem cells_eq_of_mem_iff {cells cells' : List Host.Cell} (hs : cells.Pairwise (fun a b => a.1 < b.1))
    (hs' : cells'.Pairwise (fun a b => a.1 < b.1)) (hmem : ∀ c, c ∈ cells ↔ c ∈ cells') : cells = cells' := by
  have hperm : cells.Perm cells' := (List.perm_ext_iff_of_nodup (nodup_of_rising hs) (nodup_of_rising hs')).mpr hmem
  exact hperm.eq_of_pairwise (fun _ _ _ _ hlt hgt => absurd hgt (Nat.lt_asymm hlt)) hs hs'

theorem Half.eq_of_read {h h' : Half} (hw : h.wf) (hw' : h'.wf) (hlen : h.len = h'.len)
    (hread : ∀ i, h.read i = h'.read i) : h = h' := by
  have hcells : h.cells = h'.cells := by
    refine cells_eq_of_mem_iff hw.1 hw'.1 fun c => ?_
    rw [mem_cells_iff hw.1 fun c hc => (hw.2 c hc).1, mem_cells_iff hw'.1 fun c hc => (hw'.2 c hc).1,
      show readCells h.cells c.1 = readCells h'.cells c.1 from hread c.1]
  cases h; cases h'; cases hlen; cases hcells; rfl

theorem Memory.eq_of_half {m m' : Memory} (h : ∀ side, m.half side = m'.half side) : m = m' := by
  cases m; cases m'; cases h .positive; cases h .negative; rfl

theorem Memory.half_len_eq {m m' : Memory} (hmat : ∀ a, m.Materialised a ↔ m'.Materialised a) (side : Side) :
    (m.half side).len = (m'.half side).len := by
  have hlt : ∀ i, i < (m.half side).len ↔ i < (m'.half side).len := fun i => by
    obtain ⟨a, ha⟩ := locate_surjective side i
    have hmat_a := hmat a
    rwa [Memory.Materialised, Memory.Materialised, ha] at hmat_a
  exact Nat.le_antisymm (Nat.le_of_not_lt fun h => Nat.lt_irrefl _ ((hlt _).mp h))
    (Nat.le_of_not_lt fun h => Nat.lt_irrefl _ ((hlt _).mpr h))

theorem Memory.eq_of_value {m m' : Memory} (hw : m.wf) (hw' : m'.wf)
    (hmat : ∀ a, m.Materialised a ↔ m'.Materialised a) (hval : ∀ a, m.value a = m'.value a) : m = m' := by
  refine Memory.eq_of_half fun side => Half.eq_of_read (Memory.wf_half hw side) (Memory.wf_half hw' side)
    (Memory.half_len_eq hmat side) fun i => ?_
  obtain ⟨a, ha⟩ := locate_surjective side i
  have hval_a := hval a
  rwa [Memory.value_eq_read hw, Memory.value_eq_read hw', ha] at hval_a

section
variable {m : Memory} {a : Int} (hw : m.wf) (ha : m.Materialised a)
include hw ha

/-- Of two writes to one address the second counts. -/
theorem Memory.put_put (v w : Byte) : (m.put a v).put a w = m.put a w := by
  have ha' : (m.put a v).Materialised a := (Memory.put_materialised m a a v).mpr ha
  have hw' : (m.put a v).wf := Memory.put_wf hw ha v
  refine Memory.eq_of_value (Memory.put_wf hw' ha' w) (Memory.put_wf hw ha w)
    (fun b => by simp only [Memory.put_materialised]) fun b => ?_
  by_cases hb : b = a
  · rw [hb, Memory.value_put_same hw' ha', Memory.value_put_same hw ha]
  · simp only [Memory.value_put_other _ _ hb]

theorem Memory.put_value_self : m.put a (m.value a) = m := by
  refine Memory.eq_of_value (Memory.put_wf hw ha _) hw (fun b => Memory.put_materialised m a b _) fun b => ?_
  by_cases hb : b = a
  · rw [hb, Memory.value_put_same hw ha]
  · exact Memory.value_put_other _ _ hb

end

/-! ### Writes to the current cell -/

section
variable {s : State} {v : Byte} (hw : s.tape.wf) (hc : s.cur = some v)
include hw hc

theorem State.setCur_wf (w : Byte) : (s.setCur w).tape.wf :=
  Memory.put_wf hw (cur_eq_some.mp hc).1 w

theorem State.cur_setCur (w : Byte) : (s.setCur w).cur = some w :=
  Memory.memRead_put_same hw (cur_eq_some.mp hc).1 w

theorem State.setCur_setCur (w x : Byte) : (s.setCur w).setCur x = s.setCur x :=
  congrArg s.withTape (Memory.put_put hw (cur_eq_some.mp hc).1 w x)

theorem State.setCur_self : s.setCur v = s := by
  obtain ⟨hm, rfl⟩ := cur_eq_some.mp hc
  exact congrArg s.withTape (Memory.put_value_self hw hm)

end

/-! ### The instructions that update the current cell (20_memory.md R61) -/

theorem normalAction_inc : normalAction .inc = updateCell cellInc := rfl

theorem normalAction_dec : normalAction .dec = updateCell cellDec := rfl

section
variable {i j : Instr} {f g : Byte → Byte} (hi : normalAction i = updateCell f)
include hi

theorem exec_of_cur {s : State} {v : Byte} (hs : s.skip = 0) (hc : s.cur = some v) :
    exec i s = .next (s.setCur (f v)).advance := by
  rw [exec_of_normal hs, hi, updateCell, hc]

/-- The next state, with what its tape reads as. -/
theorem exec_stores {s : State} {v : Byte} (hw : s.tape.wf) (hs : s.skip = 0) (hc : s.cur = some v) :
    ∃ m : Memory, exec i s = .next { s with tape := m, pc := s.pc + 1 } ∧ m.memRead s.addr = some (f v) ∧
      ∀ a, a ≠ s.addr → m.memRead a = s.tape.memRead a :=
  ⟨s.tape.put s.addr (f v), exec_of_cur hi hs hc, State.cur_setCur hw hc (f v),
    fun _ ha => Memory.memRead_put_other _ _ ha⟩

/-- An update of the current cell is undone, but for `pc`, by one that gives its byte back. -/
theorem exec_undo (hj : normalAction j = updateCell g) {s t : State} {v : Byte} (hw : s.tape.wf) (hs : s.skip = 0)
    (hc : s.cur = some v) (hgf : g (f v) = v) (h : exec i s = .next t) :
    exec j t = .next { s with pc := s.pc + 2 } := by
  cases (exec_of_cur hi hs hc).symm.trans h
  have hc' : (s.setCur (f v)).advance.cur = some (f v) := State.cur_setCur hw hc _
  calc exec j (s.setCur (f v)).advance
      = .next (((s.setCur (f v)).setCur (g (f v))).jump (s.pc + 2)) := exec_of_cur hj hs hc'
    _ = .next (s.jump (s.pc + 2)) := by rw [State.setCur_setCur hw hc, hgf, State.setCur_self hw hc]

end

/-! ### `+` and `-` (42_cell_arithmetic.md R130, R131) -/

/-- `n` times `+` in a row add `n` to the current cell. -/
theorem execTimes_inc (n : Nat) {s : State} {v : Byte} (hw : s.tape.wf) (hs : s.skip = 0) (hc : s.cur = some v) :
    execTimes .inc n s = .next ((s.setCur (v + BitVec.ofNat 8 n)).jump (s.pc + n)) := by
  induction n generalizing s v with
  | zero =>
    rw [show v + BitVec.ofNat 8 0 = v from BitVec.add_zero v, State.setCur_self hw hc]
    rfl
  | succ n ih =>
    have hrest := ih (s := (s.setCur (cellInc v)).advance) (State.setCur_wf hw hc _) hs (State.cur_setCur hw hc _)
    have hsum : cellInc v + BitVec.ofNat 8 n = v + BitVec.ofNat 8 (n + 1) := by
      rw [cellInc_eq, Nat.add_comm, BitVec.ofNat_add]
      exact BitVec.add_assoc v 1 _
    have hpc : s.pc + 1 + n = s.pc + (n + 1) := by omega
    calc execTimes .inc (n + 1) s = execTimes .inc n (s.setCur (cellInc v)).advance := by
          rw [execTimes, exec_of_cur normalAction_inc hs hc]
      _ = .next (((s.setCur (cellInc v)).setCur (cellInc v + BitVec.ofNat 8 n)).jump (s.pc + 1 + n)) := hrest
      _ = .next ((s.setCur (v + BitVec.ofNat 8 (n + 1))).jump (s.pc + (n + 1))) := by
        rw [State.setCur_setCur hw hc, hsum, hpc]

theorem cellDec_cellInc (v : Byte) : cellDec (cellInc v) = v := by
  rw [cellInc_eq, cellDec_eq, BitVec.add_sub_cancel]

theorem cellInc_cellDec (v : Byte) : cellInc (cellDec v) = v := by
  rw [cellInc_eq, cellDec_eq, BitVec.sub_add_cancel]

/-- Settles O23: `+` is one update of the current cell, and 256 of them add 256, which is 0 in a byte. -/
theorem incAddsOneModulo256 : Obligations.IncAddsOneModulo256 := by
  refine ⟨decodeByte_eq_inc.mpr rfl, fun s v hw hs hc => ⟨exec_stores normalAction_inc hw hs hc, ?_⟩⟩
  have hwrap : v + BitVec.ofNat 8 256 = v := BitVec.add_zero v
  rw [execTimes_inc 256 hw hs hc, hwrap, State.setCur_self hw hc]
  rfl

/-- Settles O24: `-` is one update of the current cell, and its effect on a byte and that of `+` undo each other. -/
theorem decSubtractsOneModulo256 : Obligations.DecSubtractsOneModulo256 :=
  ⟨decodeByte_eq_dec.mpr rfl, fun _ v hw hs hc => ⟨exec_stores normalAction_dec hw hs hc,
    fun _ => exec_undo normalAction_inc normalAction_dec hw hs hc (cellDec_cellInc v),
    fun _ => exec_undo normalAction_dec normalAction_inc hw hs hc (cellInc_cellDec v)⟩⟩

/-! ### The frame of `+`, `-` and `,` -/

/-- A storing instruction passes, or stores to the current cell in normal mode; only `,` may change the source. -/
theorem exec_cellWriter_cases {i : Instr} {s t : State} (hi : i = .inc ∨ i = .dec ∨ i = .inp)
    (h : exec i s = .next t) :
    ∃ q, (i ≠ .inp → q = s.input) ∧
      (t = (s.withInput q).advance ∨ (s.skip = 0 ∧ ∃ v, t = ((s.setCur v).withInput q).advance)) := by
  obtain ⟨-, rfl⟩ | ⟨hs, he⟩ := exec_next_cases h
  · refine ⟨s.input, fun _ => rfl, .inl ?_⟩
    obtain rfl | rfl | rfl := hi <;> rfl
  · cases he with
    | counted => exact ⟨s.input, fun _ => rfl, .inr ⟨hs, _, rfl⟩⟩
    | received => exact ⟨_, fun hne => absurd rfl hne, .inr ⟨hs, _, rfl⟩⟩
    | ended => exact ⟨_, fun hne => absurd rfl hne, .inl rfl⟩
    | moved hmove | exhausted hmove => obtain ⟨rfl, -⟩ | ⟨rfl, -⟩ := hmove <;> nomatch hi
    | emitted | skipped | entered | overflowed | underflowed | repeated | left | passed => nomatch hi

/-- Settles O25: a pass leaves the tape, and a store leaves every other address and what is materialised. -/
theorem cellWritersFrame : Obligations.CellWritersFrame := by
  intro i s t hi h
  obtain ⟨q, hq, rfl | ⟨hs, v, rfl⟩⟩ := exec_cellWriter_cases hi h
  · exact ⟨fun _ _ => rfl, fun _ => .rfl, fun _ => rfl, rfl, rfl, rfl, rfl, rfl, rfl, rfl, hq⟩
  · exact ⟨fun _ ha => Memory.memRead_put_other _ _ ha, fun _ => Memory.put_materialised .., fun hpos => by omega,
      rfl, rfl, rfl, rfl, rfl, rfl, rfl, hq⟩

end Sys2Proof.Machine
end

section
/-! PROOFS. What `.` and `,` do with the two streams, what the instructions that store nothing leave alone, and the
statements of 43_byte_io.md. -/

namespace Sys2Proof.Machine

/-! ### The instructions that store nothing (43_byte_io.md R140; 44_loop_control.md R150, R151) -/

/-- `.` and `NOP` advance `pc` and at most append to the output, which `NOP` leaves. -/
theorem exec_out_or_nop_cases {i : Instr} {s t : State} (hi : i = .out ∨ ∃ b, i = .nop b) (h : exec i s = .next t) :
    ∃ o, (i ≠ .out → o = s.out) ∧ t = (s.withOut o).advance := by
  obtain rfl | ⟨b, rfl⟩ := hi
  · refine ⟨t.out, fun hne => absurd rfl hne, ?_⟩
    obtain ⟨-, rfl⟩ | ⟨-, he⟩ := exec_next_cases h
    · rfl
    · cases he with
      | emitted => rfl
      | moved hmove | exhausted hmove | counted hmove => simp at hmove
  · cases (exec_nop b s).symm.trans h
    exact ⟨s.out, fun _ => rfl, rfl⟩

/-- `[` and `]` change nothing but `pc`, `skip`, the stack and the fault record, in either mode. -/
theorem exec_bracket_frame {i : Instr} {s t : State} (hi : i = .openLoop ∨ i = .closeLoop) (h : exec i s = .next t) :
    t.tape = s.tape ∧ t.addr = s.addr ∧ t.input = s.input ∧ t.params = s.params ∧ t.out = s.out := by
  obtain ⟨-, rfl⟩ | ⟨-, he⟩ := exec_next_cases h
  · exact ⟨rfl, rfl, rfl, rfl, rfl⟩
  · cases he with
    | skipped | entered | overflowed | underflowed | repeated | left => exact ⟨rfl, rfl, rfl, rfl, rfl⟩
    | moved hmove | exhausted hmove | counted hmove => obtain ⟨rfl, -⟩ | ⟨rfl, -⟩ := hmove <;> nomatch hi
    | emitted | received | ended | passed => nomatch hi

/-- Settles O26: the brackets leave the tape and both streams, and `.` and `NOP` do nothing but append to the output
and advance `pc`. -/
theorem nonStoringFrame : Obligations.NonStoringFrame := by
  intro i s t h hi
  by_cases hpass : i = .out ∨ ∃ b, i = .nop b
  · obtain ⟨o, ho, rfl⟩ := exec_out_or_nop_cases hpass h
    exact ⟨fun _ => rfl, rfl, rfl, rfl, rfl, ho, fun _ => ⟨rfl, rfl, rfl, rfl⟩⟩
  · have hrest := hi.resolve_left fun hout => hpass (.inl hout)
    have hbracket : i = .openLoop ∨ i = .closeLoop :=
      (or_assoc.mpr hrest).resolve_right fun hnop => hpass (.inr hnop)
    obtain ⟨htape, haddr, hinput, hparams, hout⟩ := exec_bracket_frame hbracket h
    exact ⟨fun _ => by rw [htape], htape, haddr, hinput, hparams, fun _ => hout, fun hi => absurd hi hpass⟩

/-! ### `.` (43_byte_io.md R140) -/

theorem decodeByte_eq_out {b : Byte} : decodeByte b = .out ↔ b = symOut := by
  revert b; decide

theorem exec_out_of_cur {s : State} {v : Byte} (hs : s.skip = 0) (hc : s.cur = some v) :
    exec .out s = .next (outputByte s v).advance := by
  rw [exec_of_normal hs, normalAction, outNormal, hc]

/-- `n` times `.` in a row emit the current cell's byte `n` times. -/
theorem execTimes_out (n : Nat) {s : State} {v : Byte} (hs : s.skip = 0) (hc : s.cur = some v) :
    execTimes .out n s = .next ((s.withOut (s.out ++ List.replicate n v)).jump (s.pc + n)) := by
  induction n generalizing s with
  | zero => simp only [execTimes, List.replicate_zero, List.append_nil]; rfl
  | succ n ih =>
    have hout : s.out ++ [v] ++ List.replicate n v = s.out ++ List.replicate (n + 1) v := by
      rw [List.append_assoc, List.replicate_succ, List.singleton_append]
    have hpc : s.pc + 1 + n = s.pc + (n + 1) := by omega
    calc execTimes .out (n + 1) s = execTimes .out n (outputByte s v).advance := by
          rw [execTimes, exec_out_of_cur hs hc]
      _ = .next ((s.withOut (s.out ++ [v] ++ List.replicate n v)).jump (s.pc + 1 + n)) :=
        ih (s := (outputByte s v).advance) hs hc
      _ = .next ((s.withOut (s.out ++ List.replicate (n + 1) v)).jump (s.pc + (n + 1))) := by rw [hout, hpc]

/-- Settles O27: `.` appends the current cell's byte and leaves the cell, so the second emits it again. -/
theorem outEmitsTheCurrentCell : Obligations.OutEmitsTheCurrentCell :=
  ⟨decodeByte_eq_out.mpr rfl, fun _ _ hs hc => ⟨exec_out_of_cur hs hc, execTimes_out 2 hs hc⟩⟩

/-! ### `,` (43_byte_io.md R141) -/

theorem exec_in_of_answer {s : State} {item : InputItem} {q : InputSource} (hs : s.skip = 0)
    (hm : s.tape.Materialised s.addr) (hn : inputNext s.input = some (item, q)) :
    exec .inp s = .next ((s.receive item).withInput q).advance := by
  simp only [exec_of_normal hs, normalAction, inNormal, hn, hm, true_or, if_true]

/-- Settles O28: a byte received is one write to the current cell, and end-of-stream writes nothing. -/
theorem inStoresTheAnswer : Obligations.InStoresTheAnswer := by
  refine ⟨decodeByte_eq_inp.mpr rfl, fun s q hw hs hm => ⟨fun b hn => ?_, exec_in_of_answer hs hm⟩⟩
  exact ⟨s.tape.put s.addr b, exec_in_of_answer hs hm hn, Memory.memRead_put_same hw hm b,
    fun _ ha => Memory.memRead_put_other _ b ha⟩

/-! ### The input source (43_byte_io.md R142) -/

section
variable {q : InputSource}

theorem inputNext_of_cons {item : InputItem} {rest : List InputItem} (h : q.queue = item :: rest) :
    inputNext q = some (item, { q with queue := rest, asked := q.asked + 1 }) := by
  simp only [inputNext, h]

theorem inputNext_of_endOfStream (hq : q.queue = []) (ha : q.afterQueue = .endOfStream) :
    inputNext q = some (.endOfStream, { q with asked := q.asked + 1 }) := by
  simp only [inputNext, hq, ha]

theorem inputNext_of_free (hq : q.queue = []) (ha : q.afterQueue = .free) :
    inputNext q = some (Config.inputAnswer q.asked, { q with asked := q.asked + 1 }) := by
  simp only [inputNext, hq, ha]

end

/-- Settles O29: one equation for each form of answer, and `inputNext_none` for the silent source. -/
theorem inputAnswersInOrder : Obligations.InputAnswersInOrder :=
  fun _ => ⟨fun _ _ => inputNext_of_cons, inputNext_of_endOfStream, fun hq ha => ⟨_, inputNext_of_free hq ha⟩,
    inputNext_none⟩

/-! ### The I/O multiplexer (43_byte_io.md R145) -/

/-- In normal mode an instruction uses no channel, or is a `.` that emits the current cell's byte, or is a `,` that
takes one answer. -/
theorem NormalEffect.channel_cases {i : Instr} {s t : State} (h : NormalEffect i s t) :
    (t.out = s.out ∧ t.input = s.input) ∨
      (i = .out ∧ t.input = s.input ∧ ∃ v, s.cur = some v ∧ t.out = s.out ++ [v]) ∨
      (i = .inp ∧ t.out = s.out ∧ ∃ item, inputNext s.input = some (item, t.input) ∧
        (∀ b, item = .byte b → s.tape.wf → t.cur = some b) ∧ (item = .endOfStream → t.tape = s.tape)) := by
  cases h with
  | emitted hm => exact .inr (.inl ⟨rfl, rfl, _, cur_of_materialised hm, rfl⟩)
  | received hn hm =>
    refine .inr (.inr ⟨rfl, rfl, _, hn, fun _ hb hw => ?_, nofun⟩)
    cases hb
    exact Memory.memRead_put_same hw hm _
  | ended hn => exact .inr (.inr ⟨rfl, rfl, _, hn, nofun, fun _ => rfl⟩)
  | moved | exhausted | counted | skipped | entered | overflowed | underflowed | repeated | left | passed =>
    exact .inl ⟨rfl, rfl⟩

/-- Settles O31: skip mode uses no channel, and in normal mode the byte fetched is the one of the instruction. -/
theorem oneChannelOneByteAStep : Obligations.OneChannelOneByteAStep := by
  intro s t h
  obtain ⟨b, hb, ⟨-, rfl⟩ | ⟨hs, he⟩⟩ := step_next_cases h
  · exact .inl ⟨rfl, rfl⟩
  · obtain hnone | ⟨hi, hout⟩ | ⟨hi, hin⟩ := he.channel_cases
    · exact .inl hnone
    · have hf : s.Fetching symOut := decodeByte_eq_out.mp hi ▸ hb
      exact .inr (.inl ⟨hs, hf, hout⟩)
    · have hf : s.Fetching symIn := decodeByte_eq_inp.mp hi ▸ hb
      exact .inr (.inr ⟨hs, hf, hin⟩)

end Sys2Proof.Machine
end

section
/-! PROOFS. The loop-start stack and `skip` against the brackets of the program text, what `[` and `]` do in normal
mode, and the statements of 44_loop_control.md. -/

namespace Sys2Proof.Machine

/-! ### Bracket depth by the instruction (44_loop_control.md R155) -/

/-- How an instruction of the text changes the bracket depth. -/
def bracketChange : Instr → Int
  | .openLoop => 1
  | .closeLoop => -1
  | .right | .left | .inc | .dec | .out | .inp | .nop _ => 0

theorem bracketChange_decodeByte (b : Byte) :
    bracketChange (decodeByte b) = if b = symOpen then 1 else if b = symClose then -1 else 0 := by
  revert b; decide

theorem eq_openLoop_of_bracketChange_pos {i : Instr} (h : 0 < bracketChange i) : i = .openLoop := by
  cases i with
  | openLoop => rfl
  | closeLoop => nomatch h
  | right | left | inc | dec | out | inp | nop => exact absurd h (Int.lt_irrefl 0)

theorem bracketDepth_next {prog : List Byte} {k : Nat} {b : Byte} (h : prog[k]? = some b) :
    bracketDepth prog (k + 1) = bracketDepth prog k + bracketChange (decodeByte b) := by
  rw [bracketDepth_succ h, bracketChange_decodeByte]

theorem bracketDepth_after_open {prog : List Byte} {k : Nat} (h : prog[k]? = some symOpen) :
    bracketDepth prog (k + 1) = bracketDepth prog k + 1 := bracketDepth_next h

theorem bracketDepth_after_close {prog : List Byte} {k : Nat} (h : prog[k]? = some symClose) :
    bracketDepth prog (k + 1) = bracketDepth prog k - 1 := bracketDepth_next h

/-- In skip mode `skip` follows the bracket depth (45_skip_mode_nop.md R171 to R173). -/
theorem skipAfter_eq_add_bracketChange {n : Nat} (h : 0 < n) (i : Instr) :
    (skipAfter i n : Int) = n + bracketChange i := by
  cases i <;> simp only [skipAfter, bracketChange] <;> omega

/-! ### Open brackets (44_loop_control.md R155) -/

section
variable {prog : List Byte} {p q k : Nat} {c d : Int}

/-- A `[` is open just after itself. -/
theorem OpenSince.just_after (h : prog[p]? = some symOpen) (hd : bracketDepth prog (p + 1) = d) :
    OpenSince prog p (p + 1) d := by
  refine ⟨Nat.lt_succ_self p, h, hd, fun k hpk hk => ?_⟩
  obtain rfl : k = p + 1 := Nat.le_antisymm hk hpk
  exact Int.le_of_eq hd.symm

/-- A `[` stays open over one more byte that does not bring the depth below that of its body. -/
theorem OpenSince.extend (h : OpenSince prog p k d) (hd : d ≤ bracketDepth prog (k + 1)) :
    OpenSince prog p (k + 1) d := by
  obtain ⟨hlt, hopen, hbody, hmin⟩ := h
  refine ⟨Nat.lt_succ_of_lt hlt, hopen, hbody, fun j hpj hj => ?_⟩
  obtain hjk | rfl := Nat.le_or_eq_of_le_succ hj
  · exact hmin j hpj hjk
  · exact hd

/-- A `[` open at some index is open at every earlier one after it. -/
theorem OpenSince.restrict (h : OpenSince prog p k d) (hpq : p < q) (hqk : q ≤ k) : OpenSince prog p q d := by
  obtain ⟨-, hopen, hbody, hmin⟩ := h
  exact ⟨hpq, hopen, hbody, fun j hpj hj => hmin j hpj (Nat.le_trans hj hqk)⟩

/-- Of two brackets open at one index the one with the deeper body is not the earlier (44_loop_control.md R152). -/
theorem OpenSince.le_of_depth_le (hp : OpenSince prog p k c) (hq : OpenSince prog q k d) (hcd : c ≤ d) : p ≤ q := by
  obtain ⟨hpk, hopen, hbody, -⟩ := hp
  obtain ⟨-, -, -, hmin⟩ := hq
  refine Nat.le_of_not_lt fun hqp => ?_
  have hd : d ≤ bracketDepth prog p := hmin p hqp (Nat.le_of_lt hpk)
  have hafter := bracketDepth_after_open hopen
  omega

/-- A `]` at the depth of the body of an open `[` balances it. -/
theorem OpenSince.balances (h : OpenSince prog p q d) (hclose : prog[q]? = some symClose)
    (hd : bracketDepth prog q = d) : Balances prog p q := by
  obtain ⟨-, hopen, hbody, -⟩ := id h
  have hbefore := bracketDepth_after_open hopen
  have hafter := bracketDepth_after_close hclose
  exact ⟨hbody.symm ▸ h, hclose, by omega⟩

end

/-! ### The pairing under each update of the state (44_loop_control.md R152, 45_skip_mode_nop.md R174) -/

/-- The pairing speaks only of the program, `pc`, the stack and `skip`. -/
theorem State.Paired.congr {s t : State} (h : s.Paired) (hprog : t.params.prog = s.params.prog) (hpc : t.pc = s.pc)
    (hls : t.ls = s.ls) (hskip : t.skip = s.skip) : t.Paired where
  depth := by rw [State.lsp, hprog, hpc, hls, hskip, h.depth]
  entries := by rw [hprog, hpc, hls]; exact h.entries
  scan := by rw [State.lsp, hprog, hpc, hls, hskip]; exact h.scan

theorem cast_length_concat {α : Type} (xs : List α) (x : α) : ((xs ++ [x]).length : Int) = (xs.length : Int) + 1 := by
  rw [List.length_append]
  rfl

theorem getElem?_concat_eq_some {α : Type} {xs : List α} {x y : α} {i : Nat} (h : (xs ++ [x])[i]? = some y) :
    xs[i]? = some y ∨ (i = xs.length ∧ x = y) := by
  rw [List.getElem?_append] at h
  split at h
  · exact .inl h
  · obtain ⟨hi, hx⟩ := List.getElem?_eq_some_iff.mp h
    rw [List.length_singleton] at hi
    exact .inr ⟨by omega, by simpa using hx⟩

/-- In normal mode no scan is under way, and the depth is that of the entered loops. -/
theorem State.Paired.of_normal {s : State} (hs : s.skip = 0)
    (hdepth : bracketDepth s.params.prog s.pc = (s.lsp : Int))
    (hentries : ∀ i e : Nat, s.ls[i]? = some e → 1 ≤ e ∧ OpenSince s.params.prog (e - 1) s.pc ((i : Int) + 1)) :
    s.Paired where
  depth := by rw [hdepth, hs]; exact (Int.add_zero _).symm
  entries := hentries
  scan := fun hpos => absurd hs (Nat.ne_of_gt hpos)

section
variable {s : State} (h : s.Paired)
include h

theorem State.Paired.depth_of_normal (hs : s.skip = 0) : bracketDepth s.params.prog s.pc = (s.lsp : Int) := by
  rw [h.depth, hs]
  exact Int.add_zero _

theorem State.Paired.withFault (c : Fault) : (s.withFault c).Paired := h.congr rfl rfl rfl rfl

/-- An entry of the stack over one more byte, where its loop is not left. -/
theorem State.Paired.entry_next {i e : Nat} (he : s.ls[i]? = some e)
    (hd : (i : Int) + 1 ≤ bracketDepth s.params.prog (s.pc + 1)) :
    1 ≤ e ∧ OpenSince s.params.prog (e - 1) (s.pc + 1) ((i : Int) + 1) :=
  (h.entries i e he).imp_right fun hopen => hopen.extend hd

/-- `pc` advances and `skip` follows the bracket depth; a scan that starts here starts at this `[`. -/
theorem State.Paired.withSkip_advance {b : Byte} (hb : s.params.prog[s.pc]? = some b) {n : Nat}
    (hn : (n : Int) = s.skip + bracketChange (decodeByte b)) : (s.withSkip n).advance.Paired := by
  have hdepth : bracketDepth s.params.prog (s.pc + 1) = (s.lsp : Int) + n := by
    rw [bracketDepth_next hb, h.depth, hn, Int.add_assoc]
  refine ⟨hdepth, fun i e he => h.entry_next he ?_, fun hpos => ?_⟩
  · have hi : i < s.lsp := (List.getElem?_eq_some_iff.mp he).1
    omega
  · change 0 < n at hpos
    obtain hs | hs := Nat.eq_zero_or_pos s.skip
    · have hdec : decodeByte b = .openLoop := eq_openLoop_of_bracketChange_pos (by omega)
      have hn1 : n = 1 := by simp only [hdec, bracketChange] at hn; omega
      exact ⟨s.pc, .just_after (decodeByte_eq_openLoop.mp hdec ▸ hb) (hdepth.trans (by rw [hn1]; rfl))⟩
    · obtain ⟨p, hp⟩ := h.scan hs
      exact ⟨p, hp.extend (by omega)⟩

/-- `pc` advances over a byte that is no bracket. -/
theorem State.Paired.advance {b : Byte} (hb : s.params.prog[s.pc]? = some b)
    (hi : bracketChange (decodeByte b) = 0) : s.advance.Paired :=
  h.withSkip_advance hb (by rw [hi, Int.add_zero])

/-- Entering a loop: the pushed entry is the one of the `[` just passed (44_loop_control.md R150). -/
theorem State.Paired.push_advance (hopen : s.params.prog[s.pc]? = some symOpen) (hs : s.skip = 0) :
    (s.withStack (s.ls ++ [s.pc + 1])).advance.Paired := by
  have hdepth : bracketDepth s.params.prog (s.pc + 1) = (s.lsp : Int) + 1 := by
    rw [bracketDepth_after_open hopen, h.depth_of_normal hs]
  refine .of_normal hs (hdepth.trans (cast_length_concat _ _).symm) fun i e he => ?_
  obtain he | ⟨rfl, rfl⟩ := getElem?_concat_eq_some he
  · have hi : i < s.lsp := (List.getElem?_eq_some_iff.mp he).1
    exact h.entry_next he (by omega)
  · exact ⟨Nat.le_add_left 1 s.pc, .just_after hopen hdepth⟩

section
variable {ls : List Nat} {e : Nat} (hls : s.ls = ls ++ [e])
include hls

/-- The top entry is just after the innermost open `[`. -/
theorem State.Paired.top : ∃ p, e = p + 1 ∧ OpenSince s.params.prog p s.pc (s.lsp : Int) := by
  have hlsp : (s.lsp : Int) = (ls.length : Int) + 1 := by rw [State.lsp, hls, cast_length_concat]
  obtain ⟨h1, hopen⟩ := h.entries ls.length e (by rw [hls, List.getElem?_concat_length])
  exact ⟨e - 1, (Nat.sub_add_cancel h1).symm, hlsp ▸ hopen⟩

/-- Leaving a loop: the top entry is discarded (44_loop_control.md R151). -/
theorem State.Paired.pop_advance (hclose : s.params.prog[s.pc]? = some symClose) (hs : s.skip = 0) :
    (s.withStack ls).advance.Paired := by
  have hdepth : bracketDepth s.params.prog (s.pc + 1) = (ls.length : Int) := by
    rw [bracketDepth_after_close hclose, h.depth_of_normal hs, State.lsp, hls, cast_length_concat,
      Int.add_sub_cancel]
  refine .of_normal hs hdepth fun i x hx => ?_
  have hi : i < ls.length := (List.getElem?_eq_some_iff.mp hx).1
  have hx' : s.ls[i]? = some x := by rw [hls, List.getElem?_append_left hi]; exact hx
  exact h.entry_next hx' (by omega)

/-- Repeating a loop: no entry's `[` stands after the one of the top entry (44_loop_control.md R151, R152). -/
theorem State.Paired.jump_top (hs : s.skip = 0) : (s.jump e).Paired := by
  obtain ⟨p, rfl, htop⟩ := h.top hls
  obtain ⟨hlt, -, hbody, -⟩ := id htop
  refine .of_normal hs hbody fun i x hx => ?_
  obtain ⟨h1, hx_open⟩ := h.entries i x hx
  have hi : i < s.lsp := (List.getElem?_eq_some_iff.mp hx).1
  have hle : x - 1 ≤ p := hx_open.le_of_depth_le htop (by omega)
  exact ⟨h1, hx_open.restrict (Nat.lt_succ_of_le hle) hlt⟩

end

end

/-! ### The pairing along a run (44_loop_control.md R155) -/

/-- Every effect of normal mode keeps the pairing, where its instruction stands at `pc`. -/
theorem NormalEffect.keeps_paired {b : Byte} {s t : State} (he : NormalEffect (decodeByte b) s t) (h : s.Paired)
    (hb : s.Fetching b) (hs : s.skip = 0) : t.Paired := by
  have hadvance : bracketChange (decodeByte b) = 0 → s.advance.Paired := h.advance hb.2
  have hskip := h.withSkip_advance hb.2 (n := 1)
  generalize hd : decodeByte b = i at he hadvance hskip
  cases he with
  | moved hi | counted hi =>
    obtain ⟨rfl, -⟩ | ⟨rfl, -⟩ := hi <;> exact (hadvance rfl).congr rfl rfl rfl rfl
  | emitted | received | ended | passed => exact (hadvance rfl).congr rfl rfl rfl rfl
  | skipped => exact hskip (by rw [hs]; rfl)
  | entered => exact h.push_advance (decodeByte_eq_openLoop.mp hd ▸ hb.2) hs
  | repeated hls => exact h.jump_top hls hs
  | left hls => exact h.pop_advance hls (decodeByte_eq_closeLoop.mp hd ▸ hb.2) hs
  | exhausted | overflowed | underflowed => exact h.withFault _

/-- Settles O47: in skip mode `skip` follows the bracket depth, and every effect of normal mode keeps the pairing. -/
theorem everyStepKeepsThePairing : Obligations.EveryStepKeepsThePairing := by
  intro s t h hstep
  obtain ⟨b, hb, ⟨hs, rfl⟩ | ⟨hs, he⟩⟩ := step_next_cases hstep
  · exact h.withSkip_advance hb.2 (skipAfter_eq_add_bracketChange hs _)
  · exact he.keeps_paired h hb hs

theorem Reaches.paired {s t : State} (hr : Reaches s t) (h : s.Paired) : t.Paired :=
  hr.induction_inv h everyStepKeepsThePairing

/-! ### `[` in normal mode (44_loop_control.md R150) -/

section
variable {s : State} {v : Byte} (hs : s.skip = 0) (hc : s.cur = some v)
include hs hc

theorem exec_open_of_zero (hv : v = 0) : exec .openLoop s = .next (s.withSkip 1).advance := by
  simp only [exec_of_normal hs, normalAction, openNormal, hc, cellIsZero_of_eq hv, if_true]

theorem exec_open_of_room (hv : v ≠ 0) (hroom : s.lsp ≠ s.params.loopStackCapacity) :
    exec .openLoop s = .next (s.withStack (s.ls ++ [s.pc + 1])).advance := by
  simp only [exec_of_normal hs, normalAction, openNormal, hc, cellIsZero_of_ne hv, Bool.false_eq_true, if_false,
    pushStack, if_neg hroom, State.npc_eq]

theorem exec_open_of_full (hv : v ≠ 0) (hfull : s.lsp = s.params.loopStackCapacity) :
    exec .openLoop s = .next (s.withFault .loopStackOverflow) := by
  simp only [exec_of_normal hs, normalAction, openNormal, hc, cellIsZero_of_ne hv, Bool.false_eq_true, if_false,
    pushStack, if_pos hfull, raise]

end

/-- Settles O35: one equation for each way a `[` ends; its resume point lies within the program. -/
theorem openSkipsOrPushes : Obligations.OpenSkipsOrPushes :=
  ⟨decodeByte_eq_openLoop.mpr rfl, fun s _ hs hc => ⟨exec_open_of_zero hs hc, exec_open_of_room hs hc,
    exec_open_of_full hs hc, fun hf => ⟨Nat.le_add_left 1 s.pc, pc_lt_of_fetching hf⟩⟩⟩

/-! ### `]` in normal mode (44_loop_control.md R151, R154) -/

section
variable {s : State} (hs : s.skip = 0)
include hs

theorem exec_close_of_nonzero {v : Byte} {ls : List Nat} {e : Nat} (hc : s.cur = some v) (hls : s.ls = ls ++ [e])
    (hv : v ≠ 0) : exec .closeLoop s = .next (s.jump e) := by
  simp only [exec_of_normal hs, normalAction, closeNormal, hls, topStack_append, hc, cellIsZero_of_ne hv,
    Bool.false_eq_true, if_false]

theorem exec_close_of_zero {v : Byte} {ls : List Nat} {e : Nat} (hc : s.cur = some v) (hls : s.ls = ls ++ [e])
    (hv : v = 0) : exec .closeLoop s = .next (s.withStack ls).advance := by
  simp only [exec_of_normal hs, normalAction, closeNormal, hls, topStack_append, popStack_append, hc,
    cellIsZero_of_eq hv, if_true]

theorem exec_close_of_empty (hls : s.ls = []) : exec .closeLoop s = .next (s.withFault .loopStackUnderflow) := by
  rw [exec_of_normal hs, normalAction, closeNormal, hls]
  rfl

end

/-- Settles O36: one equation for each way a `]` ends. -/
theorem closeRepeatsOrLeaves : Obligations.CloseRepeatsOrLeaves :=
  ⟨decodeByte_eq_closeLoop.mpr rfl,
    fun _ _ _ _ hs hc hls => ⟨exec_close_of_nonzero hs hc hls, exec_close_of_zero hs hc hls⟩,
    fun _ hs => exec_close_of_empty hs⟩

/-! ### The discipline of the stack (44_loop_control.md R152) -/

theorem cur_ne_some_zero {s : State} (hz : s.tape.value s.addr ≠ 0) : s.cur ≠ some 0 :=
  fun hc => hz (cur_eq_some.mp hc).2

/-- In normal mode an instruction leaves the stack, or is a `[` that enters a loop, or a `]` that leaves one. -/
theorem NormalEffect.stack_cases {i : Instr} {s t : State} (h : NormalEffect i s t) :
    t.ls = s.ls ∨
      (i = .openLoop ∧ s.cur ≠ some 0 ∧ s.lsp ≠ s.params.loopStackCapacity ∧ t.ls = s.ls ++ [s.pc + 1]) ∨
      (i = .closeLoop ∧ s.cur = some 0 ∧ ∃ e, s.ls = t.ls ++ [e]) := by
  cases h with
  | entered _ hz hroom => exact .inr (.inl ⟨rfl, cur_ne_some_zero hz, hroom, rfl⟩)
  | left hls hm hz => exact .inr (.inr ⟨rfl, cur_eq_some.mpr ⟨hm, hz⟩, _, hls⟩)
  | moved | exhausted | counted | emitted | received | ended | skipped | overflowed | underflowed | repeated | passed =>
    exact .inl rfl

/-- Settles O37: skip mode leaves the stack, and in normal mode the byte fetched is the one of the instruction. -/
theorem loopStackDiscipline : Obligations.LoopStackDiscipline := by
  intro s t h
  obtain ⟨b, hb, ⟨-, rfl⟩ | ⟨hs, he⟩⟩ := step_next_cases h
  · exact .inl rfl
  · obtain hsame | ⟨hi, hpush⟩ | ⟨hi, hpop⟩ := he.stack_cases
    · exact .inl hsame
    · have hf : s.Fetching symOpen := decodeByte_eq_openLoop.mp hi ▸ hb
      exact .inr (.inl ⟨hs, hf, hpush⟩)
    · have hf : s.Fetching symClose := decodeByte_eq_closeLoop.mp hi ▸ hb
      exact .inr (.inr ⟨hs, hf, hpop⟩)

/-! ### `]` and the `[` it balances (44_loop_control.md R155) -/

/-- The top entry is just after the `[` that a `]` at `pc` balances in the text. -/
theorem State.Paired.top_balances {s : State} (h : s.Paired) (hs : s.skip = 0) {ls : List Nat} {e : Nat}
    (hls : s.ls = ls ++ [e]) (hclose : s.params.prog[s.pc]? = some symClose) :
    1 ≤ e ∧ Balances s.params.prog (e - 1) s.pc := by
  obtain ⟨p, rfl, htop⟩ := h.top hls
  exact ⟨Nat.le_add_left 1 p, htop.balances hclose (h.depth_of_normal hs)⟩

theorem step_of_fetching_close {s : State} (hf : s.Fetching symClose) : step s = exec .closeLoop s :=
  step_of_fetching hf

/-- A `]` in normal mode that answers a next state: the stack is empty, or the loop repeats, or it is left. -/
theorem step_close_cases {s t : State} (hf : s.Fetching symClose) (hs : s.skip = 0) (h : step s = .next t) :
    (s.ls = [] ∧ t = s.withFault .loopStackUnderflow) ∨
      ∃ ls e, s.ls = ls ++ [e] ∧
        ((s.cur ≠ some 0 ∧ t = s.jump e) ∨ (s.cur = some 0 ∧ t = (s.withStack ls).advance)) := by
  rw [step_of_fetching_close hf] at h
  obtain ⟨hpos, -⟩ | ⟨-, he⟩ := exec_next_cases h
  · exact absurd hs (Nat.ne_of_gt hpos)
  · cases he with
    | underflowed hls => exact .inl ⟨hls, rfl⟩
    | repeated hls _ hz => exact .inr ⟨_, _, hls, .inl ⟨cur_ne_some_zero hz, rfl⟩⟩
    | left hls hm hz => exact .inr ⟨_, _, hls, .inr ⟨cur_eq_some.mpr ⟨hm, hz⟩, rfl⟩⟩
    | moved hi | exhausted hi | counted hi => simp at hi

/-- Settles O38: a `]` jumps to the top entry or removes it, and that entry belongs to the `[` it balances. -/
theorem closeFindsItsOwnBracket : Obligations.CloseFindsItsOwnBracket := by
  intro s t h hs hf hne hstep
  obtain ⟨hnil, -⟩ | ⟨ls, e, hls, hcase⟩ := step_close_cases hf hs hstep
  · exact absurd hnil hne
  · have hbal := h.top_balances hs hls hf.2
    obtain ⟨hc, rfl⟩ | ⟨hc, rfl⟩ := hcase
    · exact ⟨fun _ => ⟨rfl, hbal⟩, fun hzero => absurd hzero hc⟩
    · exact ⟨fun hnz => absurd hc hnz, fun _ => ⟨rfl, e, hls, hbal⟩⟩

/-! ### Balanced programs (44_loop_control.md R155, 40_sequencer.md R107) -/

/-- Only a `]` on an empty stack records `LoopStackUnderflow` (60_exceptions.md R192). -/
theorem NormalEffect.of_underflow {i : Instr} {s t : State} (h : NormalEffect i s t) (hnone : s.fault = none)
    (hu : t.fault = some .loopStackUnderflow) : i = .closeLoop ∧ s.ls = [] := by
  cases h with
  | underflowed hls => exact ⟨rfl, hls⟩
  | exhausted | overflowed => cases hu
  | moved | counted | emitted | received | ended | skipped | entered | repeated | left | passed =>
    cases hnone.symm.trans hu

/-- A step records `LoopStackUnderflow` only at a `]` that brings the bracket depth of the text below 0. -/
theorem step_underflow_depth {s t : State} (hp : s.Paired) (h : step s = .next t)
    (hu : t.fault = some .loopStackUnderflow) : bracketDepth s.params.prog (s.pc + 1) < 0 := by
  obtain ⟨b, ⟨hnone, hb⟩, ⟨-, rfl⟩ | ⟨hs, he⟩⟩ := step_next_cases h
  · cases hnone.symm.trans hu
  · obtain ⟨hi, hls⟩ := he.of_underflow hnone hu
    have hclose : s.params.prog[s.pc]? = some symClose := decodeByte_eq_closeLoop.mp hi ▸ hb
    rw [bracketDepth_after_close hclose, hp.depth_of_normal hs, State.lsp, hls]
    decide

theorem State.status_eq_halted {s : State} (h : s.status = .halted) : s.fault = none ∧ s.pc = s.progLen := by
  cases hf : s.fault with
  | some c => rw [State.status_of_fault hf] at h; cases h
  | none => exact ⟨rfl, ((haltsExactlyAtProgramEnd s hf).2).mp h⟩

/-- Settles O39: the pairing holds along the run, so an underflow would be a depth below 0 in the text, and the depth
at the end of the text is the number of loops and scans left open. -/
theorem balancedProgramNeverUnderflows : Obligations.BalancedProgramNeverUnderflows := by
  intro p q s ⟨hnonneg, hend⟩ hr
  refine ⟨fun hu => ?_, fun hhalt => ?_⟩
  · cases hr with
    | refl => cases hu
    | tail hr hstep =>
      have hneg := step_underflow_depth (hr.paired (State.boot_paired p q)) hstep hu
      rw [hr.params_eq] at hneg
      exact Int.not_le.mpr hneg (hnonneg _)
  · have hparams : s.params = p := hr.params_eq
    have hdepth := (hr.paired (State.boot_paired p q)).depth
    rw [(State.status_eq_halted hhalt).2, State.progLen, hparams, hend] at hdepth
    have hsum : s.lsp + s.skip = 0 := by omega
    obtain ⟨hlsp, hskip⟩ := Nat.add_eq_zero_iff.mp hsum
    exact ⟨List.length_eq_zero_iff.mp hlsp, hskip⟩

/-! ### Reading A (44_loop_control.md R159) -/

theorem stepA_of_close {s : State} (h : s.Fetching symClose) :
    stepA s = selectMode s skipClose closeNormalA := by
  have hpc : s.pc ≠ s.progLen := Nat.ne_of_lt (pc_lt_of_fetching h)
  simp only [stepA, h.1, if_neg hpc, fetchBytes_of_fetching h]
  rfl

/-- Reading A differs from the model only where a `]` is fetched. -/
theorem stepA_of_not_close {s : State} (h : ¬ s.Fetching symClose) : stepA s = step s := by
  cases hf : s.fault with
  | some c => simp only [stepA, hf, step_of_fault hf]
  | none =>
    by_cases hend : s.pc = s.progLen
    · simp only [stepA, hf, if_pos hend, step_of_atEnd hf hend]
    · cases hb : s.params.prog[s.pc]? with
      | none =>
        simp only [stepA, hf, if_neg hend, fetchBytes, progRead, hb, Option.toList_none, decode,
          step_of_noProgramByte hf hend hb]
      | some b =>
        simp only [stepA, hf, if_neg hend, fetchBytes_of_fetching ⟨hf, hb⟩, decode_cons, step_of_fetching ⟨hf, hb⟩]
        cases hi : decodeByte b with
        | closeLoop => exact absurd ⟨hf, decodeByte_eq_closeLoop.mp hi ▸ hb⟩ h
        | right | left | inc | dec | out | inp | openLoop | nop => rfl

/-- The two readings of `]` agree on a zero cell and on an empty stack. -/
theorem closeNormalA_eq_closeNormal {s : State} (h : s.cur = some 0 ∨ s.ls = []) : closeNormalA s = closeNormal s := by
  obtain hls | ⟨ls, e, hls⟩ := List.eq_nil_or_concat s.ls
  · rw [closeNormalA, closeNormal, hls]
    rfl
  · rw [List.concat_eq_append] at hls
    have hc : s.cur = some 0 := h.resolve_right (by simp [hls])
    simp only [closeNormalA, closeNormal, hls, topStack_append, popStack_append, hc, cellIsZero_of_eq rfl, if_true]

theorem State.Inv.cur_ne_zero {s : State} (hi : s.Inv) (hc : s.cur ≠ some 0) : ∃ v, s.cur = some v ∧ v ≠ 0 :=
  have hcur := cur_of_materialised hi.current
  ⟨_, hcur, fun hz => hc (hz ▸ hcur)⟩

section
variable {s : State} {ls : List Nat} {p : Nat} (hi : s.Inv) (hs : s.skip = 0) (hc : s.cur ≠ some 0)
  (hls : s.ls = ls ++ [p + 1])
include hi hs hc hls

/-- Where the loop repeats, Reading A's `]` pops the entry and goes back to the `[` before it. -/
theorem stepA_close_goes_back (hf : s.Fetching symClose) : stepA s = .next ((s.withStack ls).jump p) := by
  obtain ⟨v, hcur, hnz⟩ := hi.cur_ne_zero hc
  rw [stepA_of_close hf, selectMode_normal hs]
  simp only [closeNormalA, hls, topStack_append, popStack_append, hcur, cellIsZero_of_ne hnz, Bool.false_eq_true,
    if_false, Nat.add_sub_cancel]

/-- That `[` finds room for the entry popped, and pushes the same entry again. -/
theorem stepA_open_enters_again (hf : ((s.withStack ls).jump p).Fetching symOpen) :
    stepA ((s.withStack ls).jump p) = .next (s.jump (p + 1)) := by
  obtain ⟨v, hcur, hnz⟩ := hi.cur_ne_zero hc
  have hroom : ls.length < s.params.loopStackCapacity := by
    have hbound := hi.stackBound
    rwa [State.lsp, hls, List.length_append] at hbound
  have hnot : ¬ ((s.withStack ls).jump p).Fetching symClose := fun hclose =>
    absurd (hf.2.symm.trans hclose.2) (by decide)
  calc stepA ((s.withStack ls).jump p)
      = exec .openLoop ((s.withStack ls).jump p) := (stepA_of_not_close hnot).trans (step_of_fetching hf)
    _ = .next ((s.withStack (ls ++ [p + 1])).jump (p + 1)) :=
      exec_open_of_room (s := (s.withStack ls).jump p) hs hcur hnz (Nat.ne_of_lt hroom)
    _ = .next (s.jump (p + 1)) := by rw [← hls]; rfl

end

/-- Where Reading A's `]` does not repeat a loop, its step is the model's. -/
theorem stepA_eq_step {s : State} (h : ¬ (s.Fetching symClose ∧ s.skip = 0 ∧ s.cur ≠ some 0 ∧ s.ls ≠ [])) :
    stepA s = step s := by
  by_cases hf : s.Fetching symClose
  · rw [stepA_of_close hf, step_of_fetching_close hf, exec, execClose]
    rcases Nat.eq_zero_or_pos s.skip with hs | hs
    · have hagree : s.cur = some 0 ∨ s.ls = [] :=
        Decidable.or_iff_not_imp_left.mpr fun hc => Decidable.not_not.mp fun hne => h ⟨hf, hs, hc, hne⟩
      rw [selectMode_normal hs, selectMode_normal hs, closeNormalA_eq_closeNormal hagree]
    · rw [selectMode_skip hs, selectMode_skip hs]
  · exact stepA_of_not_close hf

/-- Settles O40: where Reading A's `]` differs, the `[` it goes back to enters the loop again. -/
theorem readingAGivesTheSameMachine : Obligations.ReadingAGivesTheSameMachine := by
  refine fun s hi => ⟨fun t hf hs hc hne hstep => ?_, stepA_eq_step⟩
  obtain ⟨hnil, -⟩ | ⟨ls, e, hls, ⟨-, rfl⟩ | ⟨hzero, -⟩⟩ := step_close_cases hf hs hstep
  · exact absurd hnil hne
  · obtain ⟨h1, -, hopen⟩ := hi.stackEntries e (by simp [hls])
    obtain ⟨p, rfl⟩ := Nat.exists_eq_add_of_le' h1
    have hfu : ((s.withStack ls).jump p).Fetching symOpen := ⟨hf.1, hopen⟩
    have hlsp : ls.length + 1 = s.lsp := by rw [State.lsp, hls, List.length_append, List.length_singleton]
    exact ⟨_, stepA_close_goes_back hi hs hc hls hf, hfu, hlsp, rfl, rfl, stepA_open_enters_again hi hs hc hls hfu⟩
  · exact absurd hzero hc

end Sys2Proof.Machine
end

section
/-! PROOFS. What a step in skip mode does, how skip mode is entered, where a scan stands in the
text, and the statements of 45_skip_mode_nop.md. -/

namespace Sys2Proof.Machine

/-! ### A step in skip mode (45_skip_mode_nop.md R171 to R173) -/

/-- Only the brackets act on `skip` in skip mode (45_skip_mode_nop.md R173). -/
theorem skipAfter_of_not_bracket {i : Instr} (hopen : i ≠ .openLoop) (hclose : i ≠ .closeLoop) (n : Nat) :
    skipAfter i n = n := by
  cases i with
  | openLoop => exact absurd rfl hopen
  | closeLoop => exact absurd rfl hclose
  | right | left | inc | dec | out | inp | nop => rfl

theorem exec_of_skip_of_not_bracket {s : State} (hs : 0 < s.skip) {i : Instr} (hopen : i ≠ .openLoop)
    (hclose : i ≠ .closeLoop) : exec i s = .next s.advance := by
  rw [exec_of_skip hs, skipAfter_of_not_bracket hopen hclose]
  rfl

/-- Settles O10: skip mode changes only `skip`, as the brackets count it, and the byte selects the instruction. -/
theorem skipModeEffect : Obligations.SkipModeEffect := by
  intro s hs
  refine ⟨exec_of_skip hs .openLoop, exec_of_skip hs .closeLoop, fun i => exec_of_skip_of_not_bracket hs,
    fun hf => (step_of_fetching hf).trans (exec_of_skip hs .openLoop),
    fun hf => (step_of_fetching hf).trans (exec_of_skip hs .closeLoop), fun b hopen hclose hf => ?_⟩
  rw [step_of_fetching hf]
  exact exec_of_skip_of_not_bracket hs (mt decodeByte_eq_openLoop.mp hopen) (mt decodeByte_eq_closeLoop.mp hclose)

/-! ### Entering skip mode (45_skip_mode_nop.md R175) -/

/-- In normal mode an instruction is a `[` on a zero cell and sets `skip` to 1, or it leaves `skip`. -/
theorem NormalEffect.skip_cases {i : Instr} {s t : State} (h : NormalEffect i s t) :
    (i = .openLoop ∧ s.cur = some 0 ∧ t.skip = 1) ∨ (¬ (i = .openLoop ∧ s.cur = some 0) ∧ t.skip = s.skip) := by
  cases h with
  | skipped hm hz => exact .inl ⟨rfl, cur_eq_some.mpr ⟨hm, hz⟩, rfl⟩
  | entered _ hz | overflowed _ hz => exact .inr ⟨fun hi => cur_ne_some_zero hz hi.2, rfl⟩
  | moved hi | exhausted hi | counted hi =>
    obtain ⟨rfl, -⟩ | ⟨rfl, -⟩ := hi <;> exact .inr ⟨fun hopen => (nomatch hopen.1), rfl⟩
  | emitted | received | ended | underflowed | repeated | left | passed =>
    exact .inr ⟨fun hopen => (nomatch hopen.1), rfl⟩

/-- Settles O11: of the effects of normal mode only the `[` on a zero cell raises `skip`. -/
theorem skipModeEnteredOnlyByOpen : Obligations.SkipModeEnteredOnlyByOpen := by
  intro s t h hs
  obtain ⟨b, hb, ⟨hpos, -⟩ | ⟨-, he⟩⟩ := step_next_cases h
  · exact absurd hs (Nat.ne_of_gt hpos)
  · obtain ⟨hi, hc, hone⟩ | ⟨hnot, hsame⟩ := he.skip_cases
    · have hf : s.Fetching symOpen := decodeByte_eq_openLoop.mp hi ▸ hb
      exact ⟨⟨fun _ => ⟨hf, hc⟩, fun _ => hone ▸ Nat.one_pos⟩, fun _ => hone⟩
    · have hzero : ¬ 0 < t.skip := Nat.not_lt.mpr (Nat.le_of_eq (hsame.trans hs))
      refine ⟨⟨fun hpos => absurd hpos hzero, fun ⟨hf, hc⟩ => absurd ⟨?_, hc⟩ hnot⟩, fun hpos => absurd hpos hzero⟩
      exact decodeByte_eq_openLoop.mpr (Option.some.inj (hb.2.symm.trans hf.2))

/-! ### A `[` of the text over the bytes after it (44_loop_control.md R155) -/

theorem eq_closeLoop_of_bracketChange_neg {i : Instr} (h : bracketChange i < 0) : i = .closeLoop := by
  cases i with
  | closeLoop => rfl
  | openLoop => nomatch h
  | right | left | inc | dec | out | inp | nop => exact absurd h (Int.lt_irrefl 0)

section
variable {prog : List Byte} {p q k : Nat} {d : Int}

/-- Where a `[` is open the text is deeper than before it. -/
theorem OpenSince.depth_lt (h : OpenSince prog p k d) : bracketDepth prog p < bracketDepth prog k := by
  obtain ⟨hlt, hopen, hbody, hmin⟩ := h
  have hafter := bracketDepth_after_open hopen
  have hat := hmin k hlt (Nat.le_refl k)
  omega

/-- Over one more byte an open `[` stays open, or that byte is the `]` that balances it. -/
theorem OpenSince.extend_or_balances (h : OpenSince prog p k d) {b : Byte} (hb : prog[k]? = some b) :
    OpenSince prog p (k + 1) d ∨ Balances prog p k := by
  obtain ⟨hlt, -, -, hmin⟩ := id h
  have hat : d ≤ bracketDepth prog k := hmin k hlt (Nat.le_refl k)
  have hnext := bracketDepth_next hb
  obtain hd | hd := Int.lt_or_le (bracketDepth prog (k + 1)) d
  · have hi : decodeByte b = .closeLoop := eq_closeLoop_of_bracketChange_neg (by omega)
    have hclose : prog[k]? = some symClose := decodeByte_eq_closeLoop.mp hi ▸ hb
    have hafter := bracketDepth_after_close hclose
    exact .inr (h.balances hclose (by omega))
  · exact .inl (h.extend hd)

/-- No `]` before an index where a `[` is open balances it: after that `]` the depth would be below its body's. -/
theorem OpenSince.not_balances (h : OpenSince prog p k d) (hqk : q < k) : ¬ Balances prog p q := by
  rintro ⟨⟨hpq, -⟩, -, hafter⟩
  obtain ⟨-, hopen, hbody, hmin⟩ := h
  have hbefore := bracketDepth_after_open hopen
  have hd : d ≤ bracketDepth prog (q + 1) := hmin (q + 1) (Nat.lt_succ_of_lt hpq) hqk
  omega

/-- A `[` that no `]` balances is open at every index after it, up to the end of the text. -/
theorem OpenSince.of_unbalanced (hopen : prog[p]? = some symOpen) (hnone : ∀ q, ¬ Balances prog p q) (hpk : p + 1 ≤ k)
    (hk : k ≤ prog.length) : OpenSince prog p k (bracketDepth prog (p + 1)) := by
  induction hpk with
  | refl => exact .just_after hopen rfl
  | @step k _ ih =>
    exact ((ih (Nat.le_of_succ_le hk)).extend_or_balances (List.getElem?_eq_getElem hk)).resolve_right (hnone k)

end

/-! ### Where a scan stands (45_skip_mode_nop.md R174, R177) -/

/-- `u` with the scan that begins at its `[` gone on to index `k`: `skip` is the depth of the text over that of `u`. -/
def State.scanAt (u : State) (k : Nat) : State :=
  (u.withSkip (bracketDepth u.params.prog k - bracketDepth u.params.prog u.pc).toNat).jump k

section
variable {u : State} {k q : Nat} {d : Int}

theorem State.scanAt_eq {n : Nat} (hn : (n : Int) = bracketDepth u.params.prog k - bracketDepth u.params.prog u.pc) :
    u.scanAt k = (u.withSkip n).jump k := by
  rw [State.scanAt, ← hn, Int.toNat_natCast]

theorem State.scanAt_skip (h : OpenSince u.params.prog u.pc k d) :
    ((u.scanAt k).skip : Int) = bracketDepth u.params.prog k - bracketDepth u.params.prog u.pc :=
  Int.toNat_of_nonneg (Int.sub_nonneg_of_le (Int.le_of_lt h.depth_lt))

/-- While its `[` is open a scan is in skip mode. -/
theorem State.scanAt_skip_pos (h : OpenSince u.params.prog u.pc k d) : 0 < (u.scanAt k).skip :=
  Int.lt_toNat.mpr (Int.sub_pos_of_lt h.depth_lt)

/-- Just past the `]` that balances its `[` a scan is over, and `skip` is what it was (45_skip_mode_nop.md R174). -/
theorem State.scanAt_past_balancing (hs : u.skip = 0) (h : Balances u.params.prog u.pc q) :
    u.scanAt (q + 1) = u.jump (q + 1) := by
  obtain ⟨-, -, hafter⟩ := h
  rw [State.scanAt_eq (n := u.skip) (by rw [hs, hafter, Int.sub_self]; rfl)]
  rfl

/-- A scan steps from index to index, for `skip` follows the bracket depth (45_skip_mode_nop.md R171 to R173). -/
theorem step_scanAt (h : OpenSince u.params.prog u.pc k d) {b : Byte} (hf : (u.scanAt k).Fetching b) :
    step (u.scanAt k) = .next (u.scanAt (k + 1)) := by
  have hs := State.scanAt_skip_pos h
  have hnext : bracketDepth u.params.prog (k + 1) = bracketDepth u.params.prog k + bracketChange (decodeByte b) :=
    bracketDepth_next hf.2
  have hskip : (skipAfter (decodeByte b) (u.scanAt k).skip : Int) =
      bracketDepth u.params.prog (k + 1) - bracketDepth u.params.prog u.pc := by
    rw [skipAfter_eq_add_bracketChange hs, State.scanAt_skip h, hnext]
    omega
  rw [step_of_fetching hf, exec_of_skip hs, State.scanAt_eq hskip]
  rfl

section
variable (hs : u.skip = 0) (hf : u.Fetching symOpen) (hc : u.cur = some 0)
include hs hf hc

/-- The `[` on a zero cell is the first step of its scan (44_loop_control.md R150). -/
theorem step_starts_scan : step u = .next (u.scanAt (u.pc + 1)) := by
  have hone : ((1 : Nat) : Int) = bracketDepth u.params.prog (u.pc + 1) - bracketDepth u.params.prog u.pc := by
    rw [bracketDepth_after_open hf.2]
    omega
  rw [State.scanAt_eq hone]
  exact (step_of_fetching hf).trans (exec_open_of_zero hs hc rfl)

/-- Every state of a scan: its `[` is still open, or the scan is just past the `]` that balances it. -/
theorem ScansTo.scanAt_cases {t : State} (h : ScansTo u t) :
    (∃ k, OpenSince u.params.prog u.pc k (bracketDepth u.params.prog (u.pc + 1)) ∧ t = u.scanAt k) ∨
      ∃ q, Balances u.params.prog u.pc q ∧ t = u.jump (q + 1) := by
  induction h with
  | first hstep =>
    cases (step_starts_scan hs hf hc).symm.trans hstep
    exact .inl ⟨_, .just_after hf.2 rfl, rfl⟩
  | more _ hpos hstep ih =>
    obtain ⟨k, hopen, rfl⟩ | ⟨q, hbal, rfl⟩ := ih
    · obtain ⟨b, hb, -⟩ := step_next hstep
      cases (step_scanAt hopen hb).symm.trans hstep
      exact (hopen.extend_or_balances hb.2).imp (fun hnext => ⟨_, hnext, rfl⟩) fun hbal =>
        ⟨k, hbal, State.scanAt_past_balancing hs hbal⟩
    · exact absurd hs (Nat.ne_of_gt hpos)

/-- A scan comes to every index of the text at which its `[` is open. -/
theorem ScansTo.scanAt_of_open (h : OpenSince u.params.prog u.pc k d) (hk : k ≤ u.progLen) :
    ScansTo u (u.scanAt k) := by
  have hlt : u.pc + 1 ≤ k := h.1
  induction hlt with
  | refl => exact .first (step_starts_scan hs hf hc)
  | @step k hpk ih =>
    have hopen := h.restrict hpk (Nat.le_succ k)
    have hb : (u.scanAt k).Fetching u.params.prog[k] := ⟨hf.1, List.getElem?_eq_getElem hk⟩
    exact .more (ih hopen (Nat.le_of_succ_le hk)) (State.scanAt_skip_pos hopen) (step_scanAt hopen hb)

/-- One step more, over the `]` that balances its `[`, ends a scan. -/
theorem ScansTo.jump_past_balancing (h : Balances u.params.prog u.pc q) : ScansTo u (u.jump (q + 1)) := by
  rw [← State.scanAt_past_balancing hs h]
  obtain ⟨hopen, hclose, -⟩ := h
  have hq : q < u.progLen := (List.getElem?_eq_some_iff.mp hclose).1
  have hb : (u.scanAt q).Fetching symClose := ⟨hf.1, hclose⟩
  exact .more (scanAt_of_open hs hf hc hopen (Nat.le_of_lt hq)) (State.scanAt_skip_pos hopen) (step_scanAt hopen hb)

end

end

/-- Settles O12: in a scan the `[` is open exactly while `skip` is not 0, and no `]` passed balances an open `[`. -/
theorem scanEndsAtBalancingBracket : Obligations.ScanEndsAtBalancingBracket := by
  intro u t hs hf hc hscan
  obtain ⟨k, hopen, rfl⟩ | ⟨q, hbal, rfl⟩ := hscan.scanAt_cases hs hf hc
  · exact ⟨fun _ => ⟨rfl, hopen.1, fun q _ hqk => hopen.not_balances hqk⟩,
      fun hzero => absurd hzero (Nat.ne_of_gt (State.scanAt_skip_pos hopen))⟩
  · exact ⟨fun hpos => absurd hs (Nat.ne_of_gt hpos), fun _ => ⟨q, hbal, rfl⟩⟩

/-- Settles O13: the scan comes to every index at which the `[` is open, so to the `]` that balances it or,
where there is none, to the end of the text. -/
theorem scanReachesItsEnd : Obligations.ScanReachesItsEnd := by
  refine fun u hs hf hc => ⟨fun q => ScansTo.jump_past_balancing hs hf hc, fun hnone => ?_⟩
  have hopen := OpenSince.of_unbalanced hf.2 hnone (pc_lt_of_fetching hf) (Nat.le_refl _)
  exact ⟨_, State.scanAt_skip_pos hopen, ScansTo.scanAt_of_open hs hf hc hopen (Nat.le_refl _)⟩

end Sys2Proof.Machine
end

section
/-! PROOFS. Which instruction raises which fault, what a step that raises one leaves, and the statements of
60_exceptions.md. -/

namespace Sys2Proof.Machine

/-! ### The three causes (60_exceptions.md R190 to R193) -/

/-- What raises each fault in normal mode: `[` on a non-zero cell with the stack full (60_exceptions.md R191), `]` with
the stack empty (R192), a move onto an address that `Resolve` cannot materialise (R193). -/
def Raises (i : Instr) (s : State) : Fault → Prop
  | .loopStackOverflow => i = .openLoop ∧ s.cur ≠ some 0 ∧ s.lsp = s.params.loopStackCapacity
  | .loopStackUnderflow => i = .closeLoop ∧ s.lsp = 0
  | .tapeExhausted => ∃ a, ((i = .right ∧ a = s.addr + 1) ∨ (i = .left ∧ a = s.addr - 1)) ∧
      s.tape.resolve s.params.tapeHalfCapacity a = .error .tapeExhausted

/-- In normal mode an instruction keeps the fault record, or raises a fault and writes nothing else. -/
theorem NormalEffect.fault_cases {i : Instr} {s t : State} (h : NormalEffect i s t) :
    t.fault = s.fault ∨ ∃ c, t = s.withFault c ∧ Raises i s c := by
  cases h with
  | exhausted hi hr => exact .inr ⟨_, rfl, _, hi, hr⟩
  | overflowed _ hz hfull => exact .inr ⟨_, rfl, rfl, cur_ne_some_zero hz, hfull⟩
  | underflowed hls => exact .inr ⟨_, rfl, rfl, List.length_eq_zero_iff.mpr hls⟩
  | moved | counted | emitted | received | ended | skipped | entered | repeated | left | passed => exact .inl rfl

/-- An instruction that raises a fault answers the state with that fault recorded. -/
theorem exec_of_raises {i : Instr} {s : State} {c : Fault} (hi : s.Inv) (hs : s.skip = 0) (hr : Raises i s c) :
    exec i s = .next (s.withFault c) := by
  cases c with
  | loopStackOverflow =>
    obtain ⟨rfl, hc, hfull⟩ := hr
    obtain ⟨v, hv, hne⟩ := hi.cur_ne_zero hc
    exact exec_open_of_full hs hv hne hfull
  | loopStackUnderflow =>
    obtain ⟨rfl, hlsp⟩ := hr
    exact exec_close_of_empty hs (List.length_eq_zero_iff.mp hlsp)
  | tapeExhausted =>
    obtain ⟨a, hmove, hfail⟩ := hr
    have hexec : exec i s = movePointer a s := by
      rw [exec_of_normal hs]
      obtain ⟨rfl, rfl⟩ | ⟨rfl, rfl⟩ := hmove <;> rfl
    rw [hexec, movePointer, hfail]
    rfl

/-! ### A step that leads to a recorded fault (60_exceptions.md R197) -/

/-- No step starts with a fault recorded, so the step that leads to one has raised it. -/
theorem step_fault {s t : State} {c : Fault} (h : step s = .next t) (hc : t.fault = some c) :
    t = s.withFault c ∧ ∃ b, s.Fetching b ∧ s.skip = 0 ∧ Raises (decodeByte b) s c := by
  obtain ⟨b, hb, hcase⟩ := step_next_cases h
  have hchanged : t.fault ≠ s.fault := by simp [hc, hb.1]
  obtain ⟨-, rfl⟩ | ⟨hs, he⟩ := hcase
  · exact absurd rfl hchanged
  · obtain ⟨c', rfl, hr⟩ := he.fault_cases.resolve_left hchanged
    cases hc
    exact ⟨rfl, b, hb, hs, hr⟩

/-- Settles O41: the step has raised the fault, which writes the record only. -/
theorem faultsArePrecise : Obligations.FaultsArePrecise := by
  intro s t c h hc
  obtain ⟨ht, b, hb, -⟩ := step_fault h hc
  exact ⟨ht, hb.1⟩

/-- A step leads to a recorded fault exactly when the instruction it fetched raises that fault. -/
theorem step_fault_iff {s t : State} (hi : s.Inv) (h : step s = .next t) (c : Fault) :
    t.fault = some c ↔ ∃ b, s.Fetching b ∧ s.skip = 0 ∧ Raises (decodeByte b) s c := by
  refine ⟨fun hc => (step_fault h hc).2, ?_⟩
  rintro ⟨b, hb, hs, hr⟩
  cases h.symm.trans ((step_of_fetching hb).trans (exec_of_raises hi hs hr))
  rfl

/-! ### When a move finds no room (60_exceptions.md R193) -/

/-- Where a cell not in storage can only be the one just past the end of a half, `Resolve` fails exactly on such a
cell of a full half. -/
theorem Memory.resolve_fails_iff {m : Memory} {cap : TapeCapacity} {a : Int} {side : Side}
    (hend : ¬ m.Materialised a → Memory.locate a = ⟨side, (m.half side).len⟩) :
    m.resolve cap a = .error .tapeExhausted ↔ ¬ m.Materialised a ∧ cap = .cells (m.half side).len := by
  by_cases hm : m.Materialised a
  · simp [Memory.resolve_materialised hm, hm]
  · simp [Memory.resolve_end (hend hm), hm]

theorem State.Inv.right_fails_iff {s : State} (hi : s.Inv) {cap : TapeCapacity} :
    s.tape.resolve cap (s.addr + 1) = .error .tapeExhausted ↔
      ¬ s.tape.Materialised (s.addr + 1) ∧ cap = .cells s.tape.pos.len :=
  Memory.resolve_fails_iff (side := .positive) fun hn => Memory.next_right hi.current hn hi.origin

theorem State.Inv.left_fails_iff {s : State} (hi : s.Inv) {cap : TapeCapacity} :
    s.tape.resolve cap (s.addr - 1) = .error .tapeExhausted ↔
      ¬ s.tape.Materialised (s.addr - 1) ∧ cap = .cells s.tape.neg.len :=
  Memory.resolve_fails_iff (side := .negative) fun hn => Memory.next_left hi.current hn

/-! ### The causes by the byte fetched -/

theorem raises_overflow_iff {b : Byte} {s : State} : Raises (decodeByte b) s .loopStackOverflow ↔
    b = symOpen ∧ s.cur ≠ some 0 ∧ s.lsp = s.params.loopStackCapacity :=
  and_congr_left' decodeByte_eq_openLoop

theorem raises_underflow_iff {b : Byte} {s : State} :
    Raises (decodeByte b) s .loopStackUnderflow ↔ b = symClose ∧ s.lsp = 0 :=
  and_congr_left' decodeByte_eq_closeLoop

theorem State.Inv.raises_exhausted_iff {b : Byte} {s : State} (hi : s.Inv) :
    Raises (decodeByte b) s .tapeExhausted ↔
      (b = symRight ∧ ¬ s.tape.Materialised (s.addr + 1) ∧ s.params.tapeHalfCapacity = .cells s.tape.pos.len) ∨
      (b = symLeft ∧ ¬ s.tape.Materialised (s.addr - 1) ∧ s.params.tapeHalfCapacity = .cells s.tape.neg.len) := by
  rw [← hi.right_fails_iff, ← hi.left_fails_iff, ← decodeByte_eq_right, ← decodeByte_eq_left]
  simp only [Raises, or_and_right, exists_or, and_assoc, exists_and_left, exists_eq_left]

/-- A step fetches one byte, so a condition that names the byte is one on what is fetched. -/
theorem exists_fetching_eq_iff {s : State} {x : Byte} {P Q : Prop} :
    (∃ b, s.Fetching b ∧ P ∧ b = x ∧ Q) ↔ s.Fetching x ∧ P ∧ Q :=
  ⟨fun ⟨_, hb, hp, rfl, hq⟩ => ⟨hb, hp, hq⟩, fun ⟨hb, hp, hq⟩ => ⟨x, hb, hp, rfl, hq⟩⟩

/-- Settles O42: a step records a fault exactly when the fetched instruction raises it, and each fault has its own
bytes. -/
theorem faultCauses : Obligations.FaultCauses := by
  intro s t hi h
  have hiff := step_fault_iff hi h
  refine ⟨(hiff _).trans ?_, (hiff _).trans ?_, (hiff _).trans ?_⟩
  · simp only [raises_overflow_iff]
    exact exists_fetching_eq_iff
  · simp only [raises_underflow_iff]
    exact exists_fetching_eq_iff
  · simp only [hi.raises_exhausted_iff, and_or_left, exists_or]
    exact or_congr exists_fetching_eq_iff exists_fetching_eq_iff

end Sys2Proof.Machine
end
